-- ==== Sys2Proof/Word.lean ====
section
/-! DEFINITION. The word types of CORE. -/

namespace Sys2Proof

/-- An 8-bit cell, register, opcode or operand (00_scope.md R4: MEM_CELL_WIDTH, XLEN). -/
abbrev Byte := BitVec 8

/-- The program counter: 9 bits, so that it can hold 256 and never wraps at the top of memory
(10_state.md R15, R18; log 8). -/
abbrev PcWord := BitVec 9

end Sys2Proof
end

