-- ==== Sys2Proof/Syntax.lean ====
section
/-! DEFINITION. The five instructions of CORE and the types of its decode table. -/

namespace Sys2Proof

/-- An instruction: one constructor per row of spec/opcode_table.json. An operand is the raw byte of memory
(30_encoding.md R52): a register operand may be 8 to 255, and is checked when the instruction executes. -/
inductive Instr where
  /-- HLT (40_control.md R80). -/
  | hlt
  /-- LDI: destination register index, immediate (41_datamove.md R90). -/
  | ldi (a imm : Byte)
  /-- PRN: source register index (41_datamove.md R91). -/
  | prn (a : Byte)
  /-- ADD: destination and first source register index, second source register index (42_arithmetic.md R103). -/
  | add (a b : Byte)
  /-- SUB: destination and minuend register index, subtrahend register index (42_arithmetic.md R104). -/
  | sub (a b : Byte)
  deriving DecidableEq, Repr

/-- The mnemonics of the decode table (30_encoding.md R53). -/
inductive Mnemonic where
  | hlt | ldi | prn | add | sub
  deriving DecidableEq, Repr

/-- The classification of an opcode in the decode table (30_encoding.md R53). -/
inductive Classification where
  | control | dataMove | arithmetic
  deriving DecidableEq, Repr

/-- One row of the decode table (30_encoding.md R53). -/
structure DecodeRow where
  opcode : Byte
  mnemonic : Mnemonic
  operandCount : Nat
  classification : Classification
  deriving DecidableEq, Repr

/-- Why a sequence of bytes decodes to no instruction. -/
inductive DecodeError where
  /-- The sequence holds no opcode byte. -/
  | missingOpcode
  /-- The opcode byte has no row in the decode table (30_encoding.md R55). -/
  | unknownOpcode (opcode : Byte)
  /-- The sequence ends before the operand bytes the row calls for (log 20). -/
  | missingOperand (mnemonic : Mnemonic)
  deriving DecidableEq, Repr

namespace Instr

/-- The mnemonic of an instruction. -/
def mnemonic : Instr → Mnemonic
  | .hlt => .hlt
  | .ldi _ _ => .ldi
  | .prn _ => .prn
  | .add _ _ => .add
  | .sub _ _ => .sub

/-- Operand A, the byte at pc + 1, where the instruction has one (30_encoding.md R51). -/
def operandA : Instr → Option Byte
  | .hlt => none
  | .ldi a _ => some a
  | .prn a => some a
  | .add a _ => some a
  | .sub a _ => some a

/-- Operand B, the byte at pc + 2, where the instruction has one (30_encoding.md R51). -/
def operandB : Instr → Option Byte
  | .hlt => none
  | .ldi _ imm => some imm
  | .prn _ => none
  | .add _ b => some b
  | .sub _ b => some b

/-- The operand bytes that are register indices (30_encoding.md R52): B of LDI is an immediate and is not one. -/
def registerOperands : Instr → List Byte
  | .hlt => []
  | .ldi a _ => [a]
  | .prn a => [a]
  | .add a b => [a, b]
  | .sub a b => [a, b]

end Instr

end Sys2Proof
end

