-- ==== Sys2Proof/Decode.lean ====
section
/-! DEFINITION. The decode table, the decoder, and the encoder written from the same table. -/

namespace Sys2Proof

/-- The row of each mnemonic (30_encoding.md R53). -/
def rowOf : Mnemonic → DecodeRow
  | .hlt => { opcode := 0b00000001, mnemonic := .hlt, operandCount := 0, classification := .control }
  | .ldi => { opcode := 0b10000010, mnemonic := .ldi, operandCount := 2, classification := .dataMove }
  | .prn => { opcode := 0b01000111, mnemonic := .prn, operandCount := 1, classification := .dataMove }
  | .add => { opcode := 0b10100000, mnemonic := .add, operandCount := 2, classification := .arithmetic }
  | .sub => { opcode := 0b10100001, mnemonic := .sub, operandCount := 2, classification := .arithmetic }

/-- The decode table: exactly these five rows (30_encoding.md R53; D27). -/
def decodeTable : List DecodeRow := [rowOf .hlt, rowOf .ldi, rowOf .prn, rowOf .add, rowOf .sub]

/-- The row keyed by an opcode byte; none is UnknownOpcode (30_encoding.md R55). -/
def lookupOpcode (op : Byte) : Option DecodeRow := decodeTable.find? fun row => row.opcode == op

/-- The instruction a mnemonic makes with the operand bytes that follow its opcode, and the bytes left over
(30_encoding.md R50, R51). -/
def assemble : Mnemonic → List Byte → Except DecodeError (Instr × List Byte)
  | .hlt, rest => .ok (.hlt, rest)
  | .ldi, a :: imm :: rest => .ok (.ldi a imm, rest)
  | .prn, a :: rest => .ok (.prn a, rest)
  | .add, a :: b :: rest => .ok (.add a b, rest)
  | .sub, a :: b :: rest => .ok (.sub a b, rest)
  | m, _ => .error (.missingOperand m)

/-- The decoder, total on any bytes: the instruction at the head of the sequence and the rest of it. Nothing but
the opcode byte chooses the instruction (30_encoding.md R56). -/
def decode : List Byte → Except DecodeError (Instr × List Byte)
  | [] => .error .missingOpcode
  | op :: rest =>
    match lookupOpcode op with
    | none => .error (.unknownOpcode op)
    | some row => assemble row.mnemonic rest

namespace Instr

/-- The opcode byte of an instruction (30_encoding.md R53). -/
def opcode (i : Instr) : Byte := (rowOf i.mnemonic).opcode

/-- The operand count the decode table gives the instruction (30_encoding.md R54). -/
def operandCount (i : Instr) : Nat := (rowOf i.mnemonic).operandCount

/-- The operand bytes in memory order: A, then B (20_memory.md R35). -/
def operands (i : Instr) : List Byte := i.operandA.toList ++ i.operandB.toList

end Instr

/-- The encoder: the bytes of an instruction at ascending addresses (30_encoding.md R51, R64). -/
def encode (i : Instr) : List Byte := i.opcode :: i.operands

/-- The three bytes of an opcode-table word whose bit 0 is the least significant bit of the first byte; every bit
at nbits or above is 0. -/
def tableWordBytes (nbits w : Nat) : List Byte :=
  let v := w % 2 ^ nbits
  [BitVec.ofNat 8 v, BitVec.ofNat 8 (v / 2 ^ 8), BitVec.ofNat 8 (v / 2 ^ 16)]

/-- The instruction the decoder reads from an opcode-table word. -/
def decodeTableWord (nbits w : Nat) : Option Instr :=
  match decode (tableWordBytes nbits w) with
  | .ok (i, _) => some i
  | .error _ => none

end Sys2Proof
end

