-- ==== Sys2Proof/Config.lean ====
section
/-! DEFINITION. The parameters of CORE (00_scope.md R4) and its one open parameter. -/

namespace Sys2Proof.Config

/-- MEM_SIZE: bytes of memory, addresses 0 to 255. -/
@[simp] def memSize : Nat := 256

/-- NREG: the number of general registers. -/
@[simp] def numRegs : Nat := 8

/-- SP_RESET: the value register 7 (SP_INDEX) holds at reset. -/
@[simp] def spReset : Byte := 0xF4

/-- LOAD_BASE: the address of the first loaded byte. -/
@[simp] def loadBase : Nat := 0

/-- MAX_PROGRAM_LEN: the longest program the loader port accepts. -/
@[simp] def maxProgramLen : Nat := 256

/-- The number of cycles within which every run ends (70_reset_and_hazards.md R158; log 11). -/
@[simp] def maxRunCycles : Nat := 257

/-- TRACE_ENABLED: whether a trace sink is connected. The spec leaves it OPEN (00_scope.md R4, D23), so it has no
body here and nothing can be proved of its value (log 1). -/
opaque traceEnabled : Bool

end Sys2Proof.Config
end

