-- ==== Sys2Proof/Machine/State.lean ====
section
/-! DEFINITION. The whole state of CORE, the kinds of error, and the state after reset. -/

namespace Sys2Proof.Machine

/-- The error kinds the spec names (60_exceptions.md R120). -/
inductive ErrorKind where
  /-- MemRead or MemWrite at an address of 256 or more (R121). -/
  | addressOutOfRange
  /-- A register operand byte of 8 to 255 (R122). -/
  | registerOutOfRange
  /-- An opcode byte with no row in the decode table (R123). -/
  | unknownOpcode
  /-- An ALU operation tag other than ADD or SUB; no opcode reaches the ALU with one (R124). -/
  | unsupportedALUOperation
  /-- A program longer than 256 bytes; raised by the loader port, never by a cycle (R125). -/
  | programTooLarge
  deriving DecidableEq, Repr

/-- The run state of the Execution Engine (10_state.md R22). -/
inductive RunState where
  | running
  | halted
  | faulted (kind : ErrorKind) (pcAtFault : PcWord)
  deriving DecidableEq, Repr

/-- What `run()` returns (60_exceptions.md R129). -/
inductive RunOutcome where
  | haltedNormally
  | faulted (kind : ErrorKind) (pcAtFault : PcWord)
  deriving DecidableEq, Repr

/-- The eight general registers (10_state.md R10). -/
abbrev RegFile := Vector Byte 8

/-- Memory: the cells that do not hold 0, in rising order of address (log 14). -/
abbrev Memory := List Host.Cell

/-- One record of the trace port (60_exceptions.md R136). -/
structure TraceRecord where
  /-- the address of the cycle's opcode byte -/
  programCounter : PcWord
  rawOpcode : Byte
  /-- none where the instruction has no operand A -/
  operandA : Option Byte
  /-- none where the instruction has no operand B -/
  operandB : Option Byte
  /-- the registers after the execute step -/
  registers : RegFile
  deriving DecidableEq, Repr

/-- Everything CORE holds (10_state.md, summary table), its observations (R24), the open parameter TRACE_ENABLED
(00_scope.md R4) and the loader port's own mark (70_reset_and_hazards.md R153). -/
structure State where
  /-- `R[0]` to `R[7]` (10_state.md R10) -/
  regs : RegFile
  /-- the program counter (10_state.md R15) -/
  pc : PcWord
  /-- `FL` (10_state.md R19) -/
  flags : Byte
  /-- `IM` (10_state.md R20) -/
  intMask : Byte
  /-- `IS` (10_state.md R20) -/
  intStatus : Byte
  /-- `M[0]` to `M[255]` (10_state.md R21) -/
  mem : Memory
  /-- the run state (10_state.md R22) -/
  runState : RunState
  /-- the output sequence, oldest value first (10_state.md R24, 60_exceptions.md R134) -/
  out : List Byte
  /-- the trace sequence, oldest record first (10_state.md R24, 60_exceptions.md R136) -/
  trace : List TraceRecord
  /-- the number of completed cycles (10_state.md R24) -/
  cycles : Nat
  /-- TRACE_ENABLED (00_scope.md R4); no step changes it (log 1) -/
  traceEnabled : Bool
  /-- the loader port has accepted its one program (70_reset_and_hazards.md R153; log 3) -/
  programLoaded : Bool
  deriving DecidableEq, Repr

/-- Reasons an operation of the host answers with a fault. A fault raised in a cycle is NOT one of them: the spec
makes it a state of the machine, `RunState.faulted`, and the step answers that next state (log 2). -/
inductive Fault where
  /-- ProgramTooLarge, answered by the loader port alone: nothing was written and the core stays as it was
  (60_exceptions.md R125). Safe: no step raises it. -/
  | programTooLarge
  deriving DecidableEq, Repr

/-- Reasons the model gives an operation no meaning. -/
inductive Refusal where
  /-- An instruction with no meaning yet, refused by an arm of exec. No arm raises it: every instruction has its
  meaning. Safe. -/
  | notModelled (mnemonic : String)
  /-- A load after the first cycle, or a second load (70_reset_and_hazards.md R153: "refuses a load at any other
  time"); raised by the loader port alone. Safe. -/
  | loadOutsideLaunch
  deriving DecidableEq, Repr

/-- The state at construction (70_reset_and_hazards.md R150), for either value of TRACE_ENABLED. -/
def State.resetWith (traceEnabled : Bool) : State where
  regs := #v[0, 0, 0, 0, 0, 0, 0, Config.spReset]
  pc := 0
  flags := 0
  intMask := 0
  intStatus := 0
  mem := []
  runState := .running
  out := []
  trace := []
  cycles := 0
  traceEnabled := traceEnabled
  programLoaded := false

/-- The machine right after reset, TRACE_ENABLED left open (log 1). -/
def State.reset : State := State.resetWith Config.traceEnabled

end Sys2Proof.Machine
end

