-- ==== Sys2Proof/Machine/Ops.lean ====
section
/-! DEFINITION. The shared operations: memory, the one-field updates of State, entering a fault, and completing a
cycle. -/

namespace Sys2Proof.Machine

/-- The code of an error kind (60_exceptions.md R120; log 16). -/
def ErrorKind.code : ErrorKind → Nat
  | .addressOutOfRange => 1
  | .registerOutOfRange => 2
  | .unknownOpcode => 3
  | .unsupportedALUOperation => 4
  | .programTooLarge => 5

/-! ### Memory -/

/-- What an address that is not listed reads as: every cell is 0 at reset (10_state.md R21). -/
def Memory.unlisted : Byte := 0

/-- The canonical form: addresses strictly rising, all below 256, and no entry equal to what an unlisted address
reads as. -/
abbrev Memory.wf (m : Memory) : Prop :=
  m.Pairwise (fun c d => c.1 < d.1) ∧ ∀ c ∈ m, c.1 < Config.memSize ∧ c.2 ≠ Memory.unlisted

/-- The content of a cell. -/
def Memory.get : Memory → Nat → Byte
  | [], _ => Memory.unlisted
  | (k, w) :: m, a => if k = a then w else Memory.get m a

/-- The memory with one cell replaced, in canonical form again. -/
def Memory.set : Memory → Nat → Byte → Memory
  | [], a, v => if v = Memory.unlisted then [] else [(a, v)]
  | (k, w) :: m, a, v =>
    if a < k then
      if v = Memory.unlisted then (k, w) :: m else (a, v) :: (k, w) :: m
    else if a = k then
      if v = Memory.unlisted then m else (a, v) :: m
    else (k, w) :: Memory.set m a v

/-- `MemRead(addr, 1)` (20_memory.md R31): the address is never reduced. -/
def Memory.read (m : Memory) (addr : Nat) : Except ErrorKind Byte :=
  if addr < Config.memSize then .ok (m.get addr) else .error .addressOutOfRange

/-- `MemWrite(addr, 1, v)` (20_memory.md R32): stores v mod 256. -/
def Memory.write (m : Memory) (addr v : Nat) : Except ErrorKind Memory :=
  if addr < Config.memSize then .ok (m.set addr (BitVec.ofNat 8 v)) else .error .addressOutOfRange

/-- One `MemWrite` for each byte, at ascending addresses (70_reset_and_hazards.md R152, pseudocode). A byte whose
write fails is not stored; the loader port's length check keeps that from happening. -/
def Memory.writeBytes : Memory → Nat → List Byte → Memory
  | m, _, [] => m
  | m, addr, v :: vs =>
    match m.write addr v.toNat with
    | .ok m' => Memory.writeBytes m' (addr + 1) vs
    | .error _ => Memory.writeBytes m (addr + 1) vs

/-! ### Updates of State -/

/-- `R[i] <- v` for a register that exists. -/
def State.setReg (s : State) (i : Fin 8) (v : Byte) : State := { s with regs := s.regs.set i v }

/-- The flags register replaced. -/
def State.setFlags (s : State) (v : Byte) : State := { s with flags := v }

/-- `emit_out(v)`: one value appended to the output sequence (60_exceptions.md R134). -/
def State.emitOut (s : State) (v : Byte) : State := { s with out := s.out ++ [v] }

/-- `halt`: the run state becomes Halted (10_state.md R22). -/
def State.halt (s : State) : State := { s with runState := .halted }

/-- Entering a fault of a kind (60_exceptions.md R126, R127): the run state records the kind and the pc of the
cycle, and nothing else changes. There is no return from it (R128). -/
def State.raise (s : State) (k : ErrorKind) : State := { s with runState := .faulted k s.pc }

/-- The record the trace port emits for a cycle, from the state after its execute step, in which pc is still the
address of the opcode byte (60_exceptions.md R136; log 9). -/
def State.traceRecord (s : State) (i : Instr) : TraceRecord where
  programCounter := s.pc
  rawOpcode := i.opcode
  operandA := i.operandA
  operandB := i.operandB
  registers := s.regs

/-- The end of a completed cycle, from the state after its execute step (30_encoding.md R57, R60): pc advances by
1 + operandCount, the cycle is counted, and the trace port emits its record where it is connected. -/
def State.completeCycle (s : State) (i : Instr) : State :=
  { s with
    pc := s.pc + BitVec.ofNat 9 (1 + i.operandCount)
    cycles := s.cycles + 1
    trace := if s.traceEnabled then s.trace ++ [s.traceRecord i] else s.trace }

/-- The rest of a cycle once the execute step has answered, from the state s at the start of the cycle: a fault
drops whatever the execute step did and is entered from s (30_encoding.md R57, "on raise"), otherwise the cycle
completes. -/
def finishCycle (i : Instr) (s : State) (executed : Except ErrorKind State) :
    Host.Outcome State Fault Refusal :=
  match executed with
  | .error k => .next (s.raise k)
  | .ok s' => .next (s'.completeCycle i)

end Sys2Proof.Machine
end

