-- ==== Sys2Proof/Machine/Flags.lean ====
section
/-! DEFINITION. The flags computation of CORE: none. FL is reserved and no instruction writes it (10_state.md
R19); the ALU records no condition anywhere (42_arithmetic.md R101). -/

namespace Sys2Proof.Machine

/-- FL after an ALU operation on x and y with the exact result r: as it was (42_arithmetic.md R101). -/
def flagsAfterAlu (flags _x _y : Byte) (_r : Int) : Byte := flags

end Sys2Proof.Machine
end

