-- ==== Sys2Proof/Machine/Operands.lean ====
section
/-! DEFINITION. The two operand forms: a register index in an operand byte, and an immediate in an operand byte. -/

namespace Sys2Proof.Machine

/-- `read_reg(i)` (10_state.md R13): the index is checked, never masked. -/
def readReg (s : State) (i : Byte) : Except ErrorKind Byte :=
  if h : i.toNat < 8 then .ok s.regs[i.toNat] else .error .registerOutOfRange

/-- `write_reg(i, v)` (10_state.md R12, R13): stores v mod 256, the non-negative remainder. -/
def writeReg (s : State) (i : Byte) (v : Int) : Except ErrorKind State :=
  if h : i.toNat < 8 then .ok (s.setReg ⟨i.toNat, h⟩ (BitVec.ofInt 8 v)) else .error .registerOutOfRange

/-- The value of an immediate operand byte: 0 to 255, used as is (30_encoding.md R52). -/
def immediate (b : Byte) : Int := b.toNat

end Sys2Proof.Machine
end

