-- ==== Sys2Proof/Machine/Alu.lean ====
section
/-! DEFINITION. The ALU (42_arithmetic.md R100 to R102). -/

namespace Sys2Proof.Machine

/-- An ALU operation tag. The ALU supports ADD and SUB; `other` stands for any other tag, which it refuses
(42_arithmetic.md R102; log 13). -/
inductive AluTag where
  | add
  | sub
  | other (tag : Nat)
  deriving DecidableEq, Repr

/-- The exact result of an operation, before it is reduced to 8 bits (42_arithmetic.md R101, R105). -/
def aluResult (op : AluTag) (x y : Byte) : Except ErrorKind Int :=
  match op with
  | .add => .ok ((x.toNat : Int) + y.toNat)
  | .sub => .ok ((x.toNat : Int) - y.toNat)
  | .other _ => .error .unsupportedALUOperation

/-- `alu_apply(op, d, s)` (42_arithmetic.md R101): both registers are read before the result is written to the
first. -/
def aluApply (op : AluTag) (d src : Byte) (s : State) : Except ErrorKind State :=
  match readReg s d with
  | .error k => .error k
  | .ok x =>
    match readReg s src with
    | .error k => .error k
    | .ok y =>
      match aluResult op x y with
      | .error k => .error k
      | .ok r => writeReg (s.setFlags (flagsAfterAlu s.flags x y r)) d r

end Sys2Proof.Machine
end

