-- ==== Sys2Proof/Machine/Arithmetic.lean ====
section
/-! DEFINITION. The Arithmetic class: ADD and SUB, delegated to the ALU. -/

namespace Sys2Proof.Machine

/-- ADD (42_arithmetic.md R103). -/
def execAdd (a b : Byte) (s : State) : Host.Outcome State Fault Refusal :=
  finishCycle (.add a b) s (aluApply .add a b s)

/-- SUB (42_arithmetic.md R104): A minus B. -/
def execSub (a b : Byte) (s : State) : Host.Outcome State Fault Refusal :=
  finishCycle (.sub a b) s (aluApply .sub a b s)

end Sys2Proof.Machine
end

