-- ==== Sys2Proof/Machine/Control.lean ====
section
/-! DEFINITION. The Control class: HLT. A meaning is a whole cycle after its fetch, from the state at the start of
the cycle (log 12). -/

namespace Sys2Proof.Machine

/-- HLT (40_control.md R80): the run state becomes Halted; the cycle is a completed one. -/
def execHlt (s : State) : Host.Outcome State Fault Refusal :=
  finishCycle .hlt s (.ok s.halt)

end Sys2Proof.Machine
end

