-- ==== Sys2Proof/Machine/DataMove.lean ====
section
/-! DEFINITION. The DataMove class: LDI and PRN. -/

namespace Sys2Proof.Machine

/-- LDI (41_datamove.md R90): the immediate is written to register a. -/
def execLdi (a imm : Byte) (s : State) : Host.Outcome State Fault Refusal :=
  finishCycle (.ldi a imm) s (writeReg s a (immediate imm))

/-- PRN (41_datamove.md R91): the value of register a goes to the output port. -/
def execPrn (a : Byte) (s : State) : Host.Outcome State Fault Refusal :=
  finishCycle (.prn a) s ((readReg s a).map s.emitOut)

end Sys2Proof.Machine
end

