-- ==== Sys2Proof/Machine/Fetch.lean ====
section
/-! DEFINITION. Fetching and decoding the instruction at pc, in the order of the cycle (30_encoding.md R57). -/

namespace Sys2Proof.Machine

/-- The given number of operand bytes from an address on, the lower address first; bytes the decode does not call
for are not read (30_encoding.md R58). -/
def fetchOperands (m : Memory) (addr : Nat) : Nat → Except ErrorKind (List Byte)
  | 0 => .ok []
  | n + 1 =>
    match m.read addr with
    | .error k => .error k
    | .ok v =>
      match fetchOperands m (addr + 1) n with
      | .error k => .error k
      | .ok vs => .ok (v :: vs)

/-- Steps 1 to 3 of the cycle: the opcode at pc, its row, then the operands at pc + 1 and pc + 2. The last error
is never reached, since the operands are as many as the row calls for (fetch_spec in Laws/Fetch.lean). -/
def fetch (s : State) : Except ErrorKind Instr :=
  match s.mem.read s.pc.toNat with
  | .error k => .error k
  | .ok op =>
    match lookupOpcode op with
    | none => .error .unknownOpcode
    | some row =>
      match fetchOperands s.mem (s.pc.toNat + 1) row.operandCount with
      | .error k => .error k
      | .ok operands =>
        match assemble row.mnemonic operands with
        | .ok (i, _) => .ok i
        | .error _ => .error .unknownOpcode

/-- One cycle of a Running core up to the meaning of its instruction: a failing fetch or decode enters its fault
(60_exceptions.md R126), otherwise the given meaning runs. -/
def cycleWith (meaning : Instr → State → Host.Outcome State Fault Refusal) (s : State) :
    Host.Outcome State Fault Refusal :=
  match fetch s with
  | .error k => .next (s.raise k)
  | .ok i => meaning i s

/-- The state with the three bytes of an opcode-table word where the next cycle fetches, and Running, so that the
next cycle fetches it (log 4). -/
def placeFetchWord (s : State) (nbits w : Nat) : State :=
  { s with runState := .running, mem := s.mem.writeBytes s.pc.toNat (tableWordBytes nbits w) }

end Sys2Proof.Machine
end

