-- ==== Sys2Proof/Machine/Step.lean ====
section
/-! DEFINITION. One step: one cycle of a Running core (30_encoding.md R57), nothing in a terminal state (R61). -/

namespace Sys2Proof.Machine

/-- `step()` (30_encoding.md R57, R61). -/
def step (s : State) : Host.Outcome State Fault Refusal :=
  match s.runState with
  | .running => cycleWith exec s
  | .halted => .next s
  | .faulted _ _ => .next s

/-- The state whose next step fetches and runs the instruction of an opcode-table word (log 4). -/
def State.withFetchWord (s : State) (nbits w : Nat) : State := placeFetchWord s nbits w

end Sys2Proof.Machine
end

