-- ==== Sys2Proof/WellFormed.lean ====
section
/-! DEFINITION. Which instructions the assembler syntax can spell: those whose register operands name registers. -/

namespace Sys2Proof

/-- A register operand byte names one of the eight registers (10_state.md R13). -/
def validIndex (i : Byte) : Bool := decide (i.toNat < Config.numRegs)

/-- Every register operand names a register (30_encoding.md R52, R64). An instruction that fails this check still
decodes, and executing it raises RegisterOutOfRange (60_exceptions.md R122; log 15). -/
def Instr.wellFormed (i : Instr) : Bool := i.registerOperands.all validIndex

end Sys2Proof
end

