-- ==== Sys2Proof/Machine/Assembler.lean ====
section
/-! DEFINITION. The assembler syntax: one instruction a line, and the byte-list form (30_encoding.md R64, R65;
log 22). A line is a list of characters. -/

namespace Sys2Proof

/-- A token of a line. -/
inductive Token where
  | word (cs : List Char)
  | comma
  | openBracket
  | closeBracket
  deriving DecidableEq, Repr

/-- The word read so far, held back to front, ends. -/
def endWord (held : List Char) (rest : List Token) : List Token :=
  if held.isEmpty then rest else .word held.reverse :: rest

/-- The tokens of a line: spaces separate words, commas and brackets stand for themselves. -/
def tokens : List Char → List Char → List Token
  | held, [] => endWord held []
  | held, c :: cs =>
    if c = ' ' then endWord held (tokens [] cs)
    else if c = ',' then endWord held (.comma :: tokens [] cs)
    else if c = '[' then endWord held (.openBracket :: tokens [] cs)
    else if c = ']' then endWord held (.closeBracket :: tokens [] cs)
    else tokens (c :: held) cs

/-- The digits of a hexadecimal numeral, in the order of their values; the first ten are the decimal ones. -/
def digitChars : List Char := ['0', '1', '2', '3', '4', '5', '6', '7', '8', '9', 'A', 'B', 'C', 'D', 'E', 'F']

/-- The value of a digit in a base of at most 16. -/
def digitValue (base : Nat) (c : Char) : Option Nat := (digitChars.take base).idxOf? c

/-- The value of the digits that follow digits of the given value. -/
def digitsValue (base : Nat) : Nat → List Char → Option Nat
  | v, [] => some v
  | v, c :: cs =>
    match digitValue base c with
    | none => none
    | some d => digitsValue base (base * v + d) cs

/-- A numeral of at least one digit whose value is 0 to 255. -/
def numeralOf (base : Nat) (cs : List Char) : Option Byte :=
  if cs.isEmpty then none
  else
    match digitsValue base 0 cs with
    | none => none
    | some v => if v < 256 then some (BitVec.ofNat 8 v) else none

/-- `imm`: a decimal numeral 0 to 255, or a hexadecimal one after `0x` (30_encoding.md R64). -/
def parseNumeral : List Char → Option Byte
  | '0' :: 'x' :: cs => numeralOf 16 cs
  | cs => numeralOf 10 cs

/-- `Ra`: R0 to R7 (30_encoding.md R64). -/
def parseRegister : List Char → Option Byte
  | ['R', d] =>
    match digitValue 8 d with
    | none => none
    | some v => some (BitVec.ofNat 8 v)
  | _ => none

/-- The spelling of a mnemonic (30_encoding.md R53). -/
def Mnemonic.spelling : Mnemonic → List Char
  | .hlt => ['H', 'L', 'T']
  | .ldi => ['L', 'D', 'I']
  | .prn => ['P', 'R', 'N']
  | .add => ['A', 'D', 'D']
  | .sub => ['S', 'U', 'B']

/-- The mnemonic a word spells. -/
def parseMnemonic (cs : List Char) : Option Mnemonic :=
  [Mnemonic.hlt, .ldi, .prn, .add, .sub].find? fun m => m.spelling == cs

/-- The operands of a line, each of its own form, for a mnemonic (30_encoding.md R64). -/
def parseOperands : Mnemonic → List Token → Option Instr
  | .hlt, [] => some .hlt
  | .ldi, [.word a, .comma, .word n] => do return .ldi (← parseRegister a) (← parseNumeral n)
  | .prn, [.word a] => do return .prn (← parseRegister a)
  | .add, [.word a, .comma, .word b] => do return .add (← parseRegister a) (← parseRegister b)
  | .sub, [.word a, .comma, .word b] => do return .sub (← parseRegister a) (← parseRegister b)
  | _, _ => none

/-- An item of the byte-list form: a mnemonic stands for its opcode byte, a numeral for its value. -/
def parseItem (cs : List Char) : Option Byte :=
  match parseMnemonic cs with
  | some m => some (rowOf m).opcode
  | none => parseNumeral cs

/-- The items of the byte-list form, after its opening bracket. -/
def parseItems : List Token → Option (List Byte)
  | [.word cs, .closeBracket] => do return [← parseItem cs]
  | .word cs :: .comma :: ts => do
    let b ← parseItem cs
    let bs ← parseItems ts
    return b :: bs
  | _ => none

/-- The bytes of a line: an instruction, or the byte-list form (30_encoding.md R64). There are no
pseudo-instructions, directives or macros (R65). -/
def assembleLine (line : List Char) : Option (List Byte) :=
  match tokens [] line with
  | .openBracket :: ts => parseItems ts
  | .word cs :: ts => do
    let m ← parseMnemonic cs
    let i ← parseOperands m ts
    return encode i
  | _ => none

/-- The bytes of a program, its lines in order. -/
def assembleProgram : List (List Char) → Option (List Byte)
  | [] => some []
  | line :: lines => do
    let bs ← assembleLine line
    let rest ← assembleProgram lines
    return bs ++ rest

/-- The character of a digit. -/
def digitChar (n : Nat) : Char := digitChars.getD n '0'

/-- The decimal numeral of a byte. -/
def decimal (b : Byte) : List Char :=
  if b.toNat < 10 then [digitChar b.toNat]
  else if b.toNat < 100 then [digitChar (b.toNat / 10), digitChar (b.toNat % 10)]
  else [digitChar (b.toNat / 100), digitChar (b.toNat / 10 % 10), digitChar (b.toNat % 10)]

/-- The hexadecimal numeral of a byte, 0x00 to 0xFF. -/
def hexadecimal (b : Byte) : List Char := ['0', 'x', digitChar (b.toNat / 16), digitChar (b.toNat % 16)]

/-- The name of a register. -/
def registerName (i : Byte) : List Char := 'R' :: decimal i

/-- The line that spells an instruction, its immediate by the given form of numeral (30_encoding.md R64). -/
def Instr.spell (numeral : Byte → List Char) (i : Instr) : List Char :=
  i.mnemonic.spelling ++
    match i with
    | .hlt => []
    | .ldi a imm => ' ' :: registerName a ++ [',', ' '] ++ numeral imm
    | .prn a => ' ' :: registerName a
    | .add a b => ' ' :: registerName a ++ [',', ' '] ++ registerName b
    | .sub a b => ' ' :: registerName a ++ [',', ' '] ++ registerName b

/-- An item of the byte-list form: a mnemonic, or a byte in one of the two forms of numeral (30_encoding.md R64). -/
inductive ByteItem where
  | mnemonic (m : Mnemonic)
  | decimal (b : Byte)
  | hexadecimal (b : Byte)
  deriving DecidableEq, Repr

/-- The spelling of an item. -/
def spellItem : ByteItem → List Char
  | .mnemonic m => m.spelling
  | .decimal b => Sys2Proof.decimal b
  | .hexadecimal b => Sys2Proof.hexadecimal b

/-- The byte an item stands for: a mnemonic stands for its opcode byte. -/
def itemByte : ByteItem → Byte
  | .mnemonic m => (rowOf m).opcode
  | .decimal b => b
  | .hexadecimal b => b

/-- Items after one another, a comma and a space between two, and the closing bracket. -/
def spellItems : List ByteItem → List Char
  | [] => [']']
  | [x] => spellItem x ++ [']']
  | x :: xs => spellItem x ++ ',' :: ' ' :: spellItems xs

/-- The line of the byte-list form (30_encoding.md R64). -/
def spellByteList (items : List ByteItem) : List Char := '[' :: spellItems items

/-- An instruction as items of the byte-list form, the only form that spells a register operand byte 8 to 255
(30_encoding.md R64). -/
def Instr.byteItems (i : Instr) : List ByteItem := .mnemonic i.mnemonic :: i.operands.map .decimal

end Sys2Proof
end

