-- ==== Sys2Proof/Machine/Loader.lean ====
section
/-! DEFINITION. The loader port (70_reset_and_hazards.md R152, R153). -/

namespace Sys2Proof.Machine

/-- The loader port accepts a program: after reset, before the first cycle, and once (R153; log 3). -/
def State.launchPending (s : State) : Bool :=
  decide (s.runState = .running) && decide (s.cycles = 0) && !s.programLoaded

/-- `load(bytes)` (R152): all or nothing, from address 0 upward. A program of more than 256 bytes fails with
ProgramTooLarge and the core stays as it was (60_exceptions.md R125); a load at any other time is refused. -/
def load (program : List Byte) (s : State) : Host.Outcome State Fault Refusal :=
  if s.launchPending then
    if Config.maxProgramLen < program.length then .fault .programTooLarge
    else .next { s with mem := s.mem.writeBytes Config.loadBase program, programLoaded := true }
  else .refused .loadOutsideLaunch

/-- A launch: construction, then the load of a program. -/
def launch (traceEnabled : Bool) (program : List Byte) : Host.Outcome State Fault Refusal :=
  load program (State.resetWith traceEnabled)

end Sys2Proof.Machine
end

