-- ==== Sys2Proof/Machine/Run.lean ====
section
/-! DEFINITION. Run control: `run()` and the outcome it returns (30_encoding.md R62, 60_exceptions.md R129). -/

namespace Sys2Proof.Machine

/-- The loop of `run()`: it steps while the state is Running, at most the given number of times. -/
def runLoop : Nat → State → Host.Outcome State Fault Refusal
  | 0, s => .next s
  | k + 1, s =>
    match s.runState with
    | .running =>
      match step s with
      | .next s' => runLoop k s'
      | .fault r => .fault r
      | .refused r => .refused r
    | .halted => .next s
    | .faulted _ _ => .next s

/-- `run()`: the state in which the loop ends. The bound is the one of 70_reset_and_hazards.md R158, so it never
cuts a run short (log 11). -/
def run (s : State) : Host.Outcome State Fault Refusal := runLoop Config.maxRunCycles s

/-- The outcome a run state stands for (60_exceptions.md R129); a Running core has none yet. -/
def RunState.outcome : RunState → Option RunOutcome
  | .running => none
  | .halted => some .haltedNormally
  | .faulted k p => some (.faulted k p)

/-- What `run()` returns to its caller. -/
def runOutcome (s : State) : Option RunOutcome :=
  match run s with
  | .next t => t.runState.outcome
  | .fault _ => none
  | .refused _ => none

end Sys2Proof.Machine
end

