-- ==== Sys2Proof/Safety.lean ====
section
/-! DEFINITION. What counts as a safe state, in the terms claims use. -/

namespace Sys2Proof.Machine

/-- The given bytes stand in memory at pc, pc + 1 and so on, none of them past address 255. -/
def State.BytesAtPc (s : State) (bytes : List Byte) : Prop :=
  ∀ k v, bytes[k]? = some v → s.mem.read (s.pc.toNat + k) = .ok v

/-- The error kinds that a cycle can raise (60_exceptions.md R120 to R125). -/
def ErrorKind.raisedByCycle : ErrorKind → Prop
  | .addressOutOfRange => True
  | .registerOutOfRange => True
  | .unknownOpcode => True
  | .unsupportedALUOperation => False
  | .programTooLarge => False

/-- The invariant of CORE: it holds at reset, and the loader port and every step keep it. -/
structure State.Inv (s : State) : Prop where
  /-- memory is in canonical form (log 14) -/
  memCanonical : s.mem.wf
  /-- the largest value pc can hold is 256 (10_state.md R18) -/
  pcInRange : s.pc.toNat ≤ 256
  /-- FL stays 0 from reset on (10_state.md R19) -/
  flagsZero : s.flags = 0
  /-- IM stays at its reset value (10_state.md R20, D5) -/
  intMaskZero : s.intMask = 0
  /-- IS stays at its reset value (10_state.md R20, D5) -/
  intStatusZero : s.intStatus = 0
  /-- a fault records a kind that a cycle can raise, and the pc of its cycle, at which pc still stands
  (60_exceptions.md R126, R127) -/
  faultRecord : ∀ k p, s.runState = .faulted k p → k.raisedByCycle ∧ p = s.pc
  /-- a halted core stands just past an HLT (10_state.md R23, 30_encoding.md R60) -/
  haltedAfterHlt : s.runState = .halted →
    1 ≤ s.pc.toNat ∧ s.mem.read (s.pc.toNat - 1) = .ok 0x01
  /-- every completed cycle but HLT's has moved pc by at least 2, HLT's by 1 (30_encoding.md R53, R60) -/
  cyclesBound : 2 * s.cycles ≤ s.pc.toNat + (if s.runState = .halted then 1 else 0)
  /-- at most one output value for each completed cycle (60_exceptions.md R134) -/
  outBound : s.out.length ≤ s.cycles
  /-- one trace record for each completed cycle where the trace port is connected, else none
  (60_exceptions.md R136) -/
  traceLength : s.trace.length = if s.traceEnabled then s.cycles else 0

end Sys2Proof.Machine
end

