-- ==== Sys2Proof/Certificates/Slice0/Obligations.lean ====
section
/-! DEFINITION. The statements for the provers. -/

open Sys2Proof Sys2Proof.Machine

/-! ### Reset -/

/-- 10_state.md R14 and R16: whatever TRACE_ENABLED is, after reset every general register reads 0 except R7, which
reads 0xF4, and the core is Running with pc 0. -/
def Obligations.ResetRegistersAndProgramCounter : Prop :=
  ∀ s : State, (s = State.reset ∨ ∃ b, s = State.resetWith b) →
    (∀ i : Byte, i.toNat ≤ 7 → readReg s i = .ok (if i.toNat = 7 then 0xF4 else 0)) ∧
      s.pc = 0 ∧ s.runState = .running

/-- 70_reset_and_hazards.md, reset table: the rest of the state after reset. The zeros of IM and IS are the spec's
own decision D5, the empty observations and the zero count its decision D19 (log 5, log 10), and the closed loader
mark is the model's (log 3). -/
def Obligations.ResetRestOfState : Prop :=
  ∀ s : State, (s = State.reset ∨ ∃ b, s = State.resetWith b) →
    (∀ a, a ≤ 255 → s.mem.read a = .ok 0) ∧ s.flags = 0 ∧ s.intMask = 0 ∧ s.intStatus = 0 ∧
      s.out = [] ∧ s.trace = [] ∧ s.cycles = 0 ∧ s.programLoaded = false

/-! ### Memory and registers -/

/-- 20_memory.md R33: a read returns the value last written, 0 where none was written since reset, other cells keep
theirs, and every access outside 0 to 255 fails with AddressOutOfRange. The premise is the model's form of memory
(log 14), which reset has and every write keeps. -/
def Obligations.MemoryReadsLastWrite : Prop :=
  (∀ a, a ≤ 255 → State.reset.mem.read a = .ok 0) ∧
    ∀ m : Memory, m.wf →
      (∀ a v, a ≤ 255 → v ≤ 255 → ∃ m', m.write a v = .ok m' ∧ m'.read a = .ok (BitVec.ofNat 8 v) ∧
        ∀ b, b ≠ a → m'.read b = m.read b) ∧
      ∀ a v, 255 < a → m.read a = .error .addressOutOfRange ∧ m.write a v = .error .addressOutOfRange

/-- 20_memory.md R32 on the value written: any value is stored modulo 256. The premise is the model's form of memory
(log 14). -/
def Obligations.MemoryWriteMasksValue : Prop :=
  ∀ (m : Memory) (a v : Nat), m.wf → a ≤ 255 →
    ∃ m' w, m.write a v = .ok m' ∧ m'.read a = .ok w ∧ w.toNat = v % 256

/-- The model's own form of memory (log 14): every write, and storing a sequence, keeps it, and two memories in that
form whose cells all read the same are equal. -/
def Obligations.MemoryOperationsKeepCanonicalForm : Prop :=
  (∀ (m m' : Memory) (a v : Nat), m.wf → m.write a v = .ok m' → m'.wf) ∧
    (∀ (m : Memory) (a : Nat) (vs : List Byte), m.wf → (m.writeBytes a vs).wf) ∧
    ∀ m m' : Memory, m.wf → m'.wf → (∀ a, m.read a = m'.read a) → m = m'

/-- 10_state.md R12 and R13: an index 0 to 7 names its register, a write stores the value modulo 256 and changes no
other register, and an index 8 to 255 fails with RegisterOutOfRange and is never masked. -/
def Obligations.RegisterFileReadWrite : Prop :=
  ∀ (s : State) (i : Byte) (v : Int),
    (i.toNat ≤ 7 → ∃ t w, writeReg s i v = .ok t ∧ readReg t i = .ok w ∧ (w.toNat : Int) = v % 256 ∧
      (∀ j, j ≠ i → readReg t j = readReg s j) ∧ t = { s with regs := t.regs }) ∧
    (7 < i.toNat → readReg s i = .error .registerOutOfRange ∧ writeReg s i v = .error .registerOutOfRange)

/-! ### Encoding and decoding -/

/-- 30_encoding.md R53: the decode table maps an opcode byte to exactly one of five rows, and to nothing else, and
the length of an instruction is one more than its row's operand count. -/
def Obligations.DecodeTableHasExactlyFiveRows : Prop :=
  (∀ (op : Byte) (row : DecodeRow), lookupOpcode op = some row ↔
    row.opcode = op ∧
      row ∈ [(⟨0x01, .hlt, 0, .control⟩ : DecodeRow), ⟨0x82, .ldi, 2, .dataMove⟩, ⟨0x47, .prn, 1, .dataMove⟩,
        ⟨0xA0, .add, 2, .arithmetic⟩, ⟨0xA1, .sub, 2, .arithmetic⟩]) ∧
    ∀ i : Instr, ∃ op row, (encode i).head? = some op ∧ lookupOpcode op = some row ∧
      row.mnemonic = i.mnemonic ∧ (encode i).length = 1 + row.operandCount

/-- 30_encoding.md R54: for every row, bits 7 and 6 of the opcode equal the operand count. -/
def Obligations.OpcodeHighBitsEqualOperandCount : Prop :=
  ∀ (op : Byte) (row : DecodeRow), lookupOpcode op = some row → row.operandCount = (op >>> 6).toNat

/-- 30_encoding.md R64: words written out from the spec's encodings decode to the instructions they stand for. -/
def Obligations.SpecWordsDecode : Prop :=
  decode [0x01] = .ok (.hlt, []) ∧ decode [0x82, 0x00, 0x08] = .ok (.ldi 0 8, []) ∧
    decode [0x47, 0x07] = .ok (.prn 7, []) ∧ decode [0xA0, 0x00, 0x01] = .ok (.add 0 1, []) ∧
    decode [0xA1, 0x01, 0x00] = .ok (.sub 1 0, []) ∧ decode [0x82, 0x08, 0x01] = .ok (.ldi 8 1, []) ∧
    decode [0x00] = .error (.unknownOpcode 0x00) ∧ decode [0xC3, 0xFF] = .error (.unknownOpcode 0xC3)

/-- Decode and encode agree, both ways, for every instruction with every operand byte: a sequence decodes to an
instruction exactly when it begins with that instruction's encoding. -/
def Obligations.DecodeInvertsEncode : Prop :=
  ∀ (bs rest : List Byte) (i : Instr), decode bs = .ok (i, rest) ↔ bs = encode i ++ rest

/-- The words of opcode_table.json, operand A in bits 15 to 8 and operand B in bits 23 to 16, decode to their rows'
instructions with every operand byte. -/
def Obligations.TableWordsDecode : Prop :=
  ∀ a b : Byte,
    decodeTableWord 8 0x01 = some .hlt ∧
      decodeTableWord 16 (0x47 + 2 ^ 8 * a.toNat) = some (.prn a) ∧
      decodeTableWord 24 (0x82 + 2 ^ 8 * a.toNat + 2 ^ 16 * b.toNat) = some (.ldi a b) ∧
      decodeTableWord 24 (0xA0 + 2 ^ 8 * a.toNat + 2 ^ 16 * b.toNat) = some (.add a b) ∧
      decodeTableWord 24 (0xA1 + 2 ^ 8 * a.toNat + 2 ^ 16 * b.toNat) = some (.sub a b)

/-- 30_encoding.md R64 (the spec's decision D16, log 22), every form it gives. The line that spells an instruction
whose register operands are 0 to 7, with its immediate in decimal or in hexadecimal (0x00 to 0xFF), assembles to its
encoding, and the operands of such a line never name another register. A byte list, of any number of mnemonics and
numerals of either form, assembles to the bytes its items stand for; so the byte list of an instruction assembles to
its encoding with register operands of 8 to 255 as well. -/
def Obligations.AssemblerSpellsInstructions : Prop :=
  (∀ (numeral : Byte → List Char) (i : Instr), (numeral = decimal ∨ numeral = hexadecimal) →
    i.wellFormed = true → assembleLine (i.spell numeral) = some (encode i)) ∧
  (∀ (m : Mnemonic) (ts : List Token) (i : Instr), parseOperands m ts = some i →
    i.mnemonic = m ∧ i.wellFormed = true) ∧
  (∀ items : List ByteItem, items ≠ [] → assembleLine (spellByteList items) = some (items.map itemByte)) ∧
  ∀ i : Instr, assembleLine (spellByteList i.byteItems) = some (encode i)

/-! ### The cycle -/

/-- 30_encoding.md R57: when the bytes at pc decode to an instruction, a step of a Running core is the meaning of
that instruction in that state. The meaning ends with the PC advance (the model's division, log 12), so step adds
nothing around it. -/
def Obligations.StepRunsDecodedInstruction : Prop :=
  ∀ (s : State) (bs rest : List Byte) (i : Instr), s.runState = .running → s.BytesAtPc bs →
    decode bs = .ok (i, rest) → step s = exec i s

/-- The host's placing of an opcode-table word (log 4): the next step runs the instruction of the word, wherever pc
leaves room for three bytes. Canonical memory is the model's form (log 14). -/
def Obligations.FetchWordRunsNext : Prop :=
  ∀ (s : State) (nbits w : Nat) (i : Instr), s.mem.wf → s.pc.toNat ≤ 253 → decodeTableWord nbits w = some i →
    step (s.withFetchWord nbits w) = exec i (s.withFetchWord nbits w)

/-- 30_encoding.md R61 and 60_exceptions.md R128 (the spec's decision D20, log 2): a step in a terminal state changes
nothing. -/
def Obligations.TerminalStepChangesNothing : Prop :=
  ∀ s : State, (s.runState = .halted ∨ ∃ k p, s.runState = .faulted k p) → step s = .next s

/-- 30_encoding.md R55, 60_exceptions.md R123: an opcode byte other than the five faults with UnknownOpcode, at every
pc that memory holds (so no operand byte is read), and the five never fail to decode for their operand bytes. That the
fault records the pc of the cycle and keeps the whole rest of the state is R126 and R127, the spec's decision D4
(log 7). -/
def Obligations.UnknownOpcodeFaults : Prop :=
  (∀ (s : State) (op : Byte), s.runState = .running → s.mem.read s.pc.toNat = .ok op →
    op ∉ [(0x01 : Byte), 0x47, 0x82, 0xA0, 0xA1] →
      step s = .next { s with runState := .faulted .unknownOpcode s.pc }) ∧
    ∀ (op a b : Byte) (rest : List Byte), op ∈ [(0x01 : Byte), 0x47, 0x82, 0xA0, 0xA1] →
      ∃ i rest', decode (op :: a :: b :: rest) = .ok (i, rest')

/-- 10_state.md R17: pc changes only at the end of a completed cycle, where it advances by 1 + operandCount without
wrapping; a cycle that faults, and a step in a terminal state, leave it. That it does not wrap is 10_state.md R18 and
30_encoding.md R60 with the spec's decision D2 (log 8), that HLT's cycle advances it too is the decision D3 (log 6),
that a faulting cycle leaves it is also D4 (log 7), and that a terminal step does is D20 (log 2). -/
def Obligations.ProgramCounterAdvance : Prop :=
  ∀ s t : State, step s = .next t →
    (s.runState = .running ∧ (∀ k p, t.runState ≠ .faulted k p) ∧
      ∃ op row, s.mem.read s.pc.toNat = .ok op ∧ lookupOpcode op = some row ∧
        t.pc.toNat = s.pc.toNat + 1 + row.operandCount) ∨
    ((s.runState ≠ .running ∨ ∃ k p, t.runState = .faulted k p) ∧ t.pc = s.pc)

/-- 10_state.md R24 and 60_exceptions.md R136 with the spec's decisions D7 and D19 (log 9, log 10): a completed cycle
counts one, and emits one trace record exactly when TRACE_ENABLED, with the cycle's own pc, the bytes of the
instruction (absent where it has none) and the registers after the execute step. That HLT's cycle is a completed one
is D3 (log 6). -/
def Obligations.CompletedCycleCountsAndTraces : Prop :=
  ∀ (i : Instr) (s : State), i.wellFormed = true →
    ∃ t op, exec i s = .next t ∧ (encode i)[0]? = some op ∧ t.cycles = s.cycles + 1 ∧
      t.trace = if s.traceEnabled = true then
          s.trace ++ [{ programCounter := s.pc, rawOpcode := op, operandA := (encode i)[1]?,
                        operandB := (encode i)[2]?, registers := t.regs }]
        else s.trace

/-! ### The instructions -/

/-- HLT (40_control.md): encoding, effect, frame and the fault before it. That pc advances past it is the spec's
decision D3 (log 6); that pc can be 256 is D2 (log 8); that the fault of an opcode fetch there records the pc of the
cycle and changes nothing else is 60_exceptions.md R126 and R127, the decision D4 (log 7). -/
def Obligations.HltHalts : Prop :=
  (∀ rest, decode (0x01 :: rest) = .ok (.hlt, rest)) ∧
    (∀ s : State, ∃ t, exec .hlt s = .next t ∧ t.runState = .halted ∧ t.pc = s.pc + 1 ∧ t.regs = s.regs ∧
      t.mem = s.mem ∧ t.flags = s.flags ∧ t.intMask = s.intMask ∧ t.intStatus = s.intStatus ∧ t.out = s.out) ∧
    ∀ s : State, s.runState = .running → s.pc.toNat = 256 →
      step s = .next { s with runState := .faulted .addressOutOfRange s.pc }

/-- LDI (41_datamove.md R90): encoding, effect, and its faults. That a fault records the pc of the cycle and changes
nothing else of the state is 60_exceptions.md R126 and R127, the spec's decision D4 (log 7); pc as a 9-bit word is D2
(log 8). -/
def Obligations.LdiWritesImmediate : Prop :=
  ∀ (s : State) (a imm : Byte),
    (∀ rest, decode (0x82 :: a :: imm :: rest) = .ok (.ldi a imm, rest)) ∧
    (a.toNat ≤ 7 → ∃ t, exec (.ldi a imm) s = .next t ∧ readReg t a = .ok imm ∧
      (∀ j, j ≠ a → readReg t j = readReg s j) ∧ t.pc = s.pc + 3 ∧
      (s.pc.toNat ≤ 253 → t.pc.toNat = s.pc.toNat + 3) ∧ t.flags = s.flags ∧ t.runState = s.runState) ∧
    (7 < a.toNat → exec (.ldi a imm) s = .next { s with runState := .faulted .registerOutOfRange s.pc }) ∧
    (s.runState = .running → s.mem.read s.pc.toNat = .ok 0x82 → (s.pc.toNat = 254 ∨ s.pc.toNat = 255) →
      step s = .next { s with runState := .faulted .addressOutOfRange s.pc })

/-- PRN (41_datamove.md R91): encoding, effect, and its faults. That every PRN of a register that exists completes is
60_exceptions.md R134, the spec's decision D28 that a sink is always present and never fails (log 18); that a fault
records the pc of the cycle and changes nothing else of the state is R126 and R127, the decision D4 (log 7); pc as a
9-bit word is D2 (log 8). -/
def Obligations.PrnEmitsRegister : Prop :=
  ∀ (s : State) (a : Byte),
    (∀ rest, decode (0x47 :: a :: rest) = .ok (.prn a, rest)) ∧
    (a.toNat ≤ 7 → ∃ t v, readReg s a = .ok v ∧ exec (.prn a) s = .next t ∧ t.out = s.out ++ [v] ∧
      t.regs = s.regs ∧ t.mem = s.mem ∧ t.flags = s.flags ∧ t.pc = s.pc + 2 ∧
      (s.pc.toNat ≤ 254 → t.pc.toNat = s.pc.toNat + 2) ∧ t.runState = s.runState) ∧
    (7 < a.toNat → exec (.prn a) s = .next { s with runState := .faulted .registerOutOfRange s.pc }) ∧
    (s.runState = .running → s.mem.read s.pc.toNat = .ok 0x47 → s.pc.toNat = 255 →
      step s = .next { s with runState := .faulted .addressOutOfRange s.pc })

/-- ADD (42_arithmetic.md R103): encoding, effect, and its faults. Both operands are the values before the write, so
A = B doubles the register. That a fault records the pc of the cycle and changes nothing else of the state is
60_exceptions.md R126 and R127, the spec's decision D4 (log 7); pc as a 9-bit word is D2 (log 8). -/
def Obligations.AddWritesSumModulo256 : Prop :=
  ∀ (s : State) (a b : Byte),
    (∀ rest, decode (0xA0 :: a :: b :: rest) = .ok (.add a b, rest)) ∧
    (a.toNat ≤ 7 → b.toNat ≤ 7 → ∃ t x y r, readReg s a = .ok x ∧ readReg s b = .ok y ∧
      exec (.add a b) s = .next t ∧ readReg t a = .ok r ∧ r.toNat = (x.toNat + y.toNat) % 256 ∧
      (∀ j, j ≠ a → readReg t j = readReg s j) ∧ t.pc = s.pc + 3 ∧
      (s.pc.toNat ≤ 253 → t.pc.toNat = s.pc.toNat + 3) ∧ t.flags = s.flags ∧ t.runState = s.runState) ∧
    ((7 < a.toNat ∨ 7 < b.toNat) →
      exec (.add a b) s = .next { s with runState := .faulted .registerOutOfRange s.pc }) ∧
    (s.runState = .running → s.mem.read s.pc.toNat = .ok 0xA0 → (s.pc.toNat = 254 ∨ s.pc.toNat = 255) →
      step s = .next { s with runState := .faulted .addressOutOfRange s.pc })

/-- SUB (42_arithmetic.md R104): encoding, effect, and its faults. The remainder is the non-negative one, and the
order is A minus B. That a fault records the pc of the cycle and changes nothing else of the state is 60_exceptions.md
R126 and R127, the spec's decision D4 (log 7); pc as a 9-bit word is D2 (log 8). -/
def Obligations.SubWritesDifferenceModulo256 : Prop :=
  ∀ (s : State) (a b : Byte),
    (∀ rest, decode (0xA1 :: a :: b :: rest) = .ok (.sub a b, rest)) ∧
    (a.toNat ≤ 7 → b.toNat ≤ 7 → ∃ t x y r, readReg s a = .ok x ∧ readReg s b = .ok y ∧
      exec (.sub a b) s = .next t ∧ readReg t a = .ok r ∧
      (r.toNat : Int) = ((x.toNat : Int) - (y.toNat : Int)) % 256 ∧
      (∀ j, j ≠ a → readReg t j = readReg s j) ∧ t.pc = s.pc + 3 ∧
      (s.pc.toNat ≤ 253 → t.pc.toNat = s.pc.toNat + 3) ∧ t.flags = s.flags ∧ t.runState = s.runState) ∧
    ((7 < a.toNat ∨ 7 < b.toNat) →
      exec (.sub a b) s = .next { s with runState := .faulted .registerOutOfRange s.pc }) ∧
    (s.runState = .running → s.mem.read s.pc.toNat = .ok 0xA1 → (s.pc.toNat = 254 ∨ s.pc.toNat = 255) →
      step s = .next { s with runState := .faulted .addressOutOfRange s.pc })

/-- 42_arithmetic.md R101: the ALU reads both registers, writes the result modulo 256 to the first, and touches
nothing else. That any other tag fails is 42_arithmetic.md R102, kept by the spec's decision D22; the tag as data, and
that a register which does not exist fails before the tag is examined, are the model's (log 13). -/
def Obligations.AluAppliesToFirstRegister : Prop :=
  ∀ (op : AluTag) (d src : Byte) (s : State),
    (7 < d.toNat ∨ 7 < src.toNat → aluApply op d src s = .error .registerOutOfRange) ∧
    (d.toNat ≤ 7 → src.toNat ≤ 7 → ∃ x y, readReg s d = .ok x ∧ readReg s src = .ok y ∧
      match op with
      | .add => ∃ t r, aluApply op d src s = .ok t ∧ readReg t d = .ok r ∧ r.toNat = (x.toNat + y.toNat) % 256 ∧
          (∀ j, j ≠ d → readReg t j = readReg s j) ∧ t = { s with regs := t.regs }
      | .sub => ∃ t r, aluApply op d src s = .ok t ∧ readReg t d = .ok r ∧
          (r.toNat : Int) = ((x.toNat : Int) - (y.toNat : Int)) % 256 ∧
          (∀ j, j ≠ d → readReg t j = readReg s j) ∧ t = { s with regs := t.regs }
      | .other _ => aluApply op d src s = .error .unsupportedALUOperation)

/-- 42_arithmetic.md R105: the sum that ADD writes and the difference that SUB writes are right for two's-complement
readings as well, modulo 256, and a SUB undoes the ADD of another register. -/
def Obligations.ArithmeticIsModulo256 : Prop :=
  ∀ (s : State) (a b : Byte), a.toNat ≤ 7 → b.toNat ≤ 7 →
    ∃ x y, readReg s a = .ok x ∧ readReg s b = .ok y ∧
      (∃ t r, exec (.add a b) s = .next t ∧ readReg t a = .ok r ∧ r.toInt = (x.toInt + y.toInt).bmod 256 ∧
        (a ≠ b → ∃ u, exec (.sub a b) t = .next u ∧ u.regs = s.regs)) ∧
      ∃ t r, exec (.sub a b) s = .next t ∧ readReg t a = .ok r ∧ r.toInt = (x.toInt - y.toInt).bmod 256

/-- 10_state.md R11: no instruction treats any register differently from another. Renaming the registers by any
permutation, in the instruction and in the state, renames the result and changes nothing else. -/
def Obligations.RegistersAreInterchangeable : Prop :=
  ∀ (f : Equiv.Perm (Fin 8)) (i : Instr) (s t : State),
    let byte : Byte → Byte := fun a => if h : a.toNat < 8 then BitVec.ofNat 8 (f ⟨a.toNat, h⟩).val else a
    let file : RegFile → RegFile := fun r => Vector.ofFn fun j => r[f.symm j]
    let instr : Instr → Instr := fun i =>
      match i with
      | .hlt => .hlt
      | .ldi a imm => .ldi (byte a) imm
      | .prn a => .prn (byte a)
      | .add a b => .add (byte a) (byte b)
      | .sub a b => .sub (byte a) (byte b)
    exec i s = .next t →
      ∃ t', exec (instr i) { s with regs := file s.regs } = .next t' ∧ t'.regs = file t.regs ∧ t'.pc = t.pc ∧
        t'.out = t.out ∧ t'.runState = t.runState ∧ t'.mem = t.mem ∧ t'.flags = t.flags ∧ t'.cycles = t.cycles

/-! ### Frames -/

/-- The frame of LDI, ADD and SUB: every register but the destination (operand A), FL, IM, IS, every byte of memory,
the output, TRACE_ENABLED and the loader mark are unchanged, and so is the run state where the register operands
exist. Where one does not, the fault records the pc of the cycle and nothing else of the state changes, operand A's
register included: the spec's decision D4 (60_exceptions.md R126, R127; log 7). TRACE_ENABLED as a field is log 1, the
loader mark is the model's own (log 3). -/
def Obligations.RegisterWritersFrame : Prop :=
  ∀ (i : Instr) (a b : Byte) (s t : State), (i = .ldi a b ∨ i = .add a b ∨ i = .sub a b) → exec i s = .next t →
    (∀ j, j ≠ a → readReg t j = readReg s j) ∧ t.flags = s.flags ∧ t.intMask = s.intMask ∧
      t.intStatus = s.intStatus ∧ (∀ adr, t.mem.read adr = s.mem.read adr) ∧ t.out = s.out ∧
      t.traceEnabled = s.traceEnabled ∧ t.programLoaded = s.programLoaded ∧
      (i.wellFormed = true → t.runState = s.runState) ∧
      (i.wellFormed = false → t = { s with runState := .faulted .registerOutOfRange s.pc })

/-- The frame of HLT and PRN: every register, FL, IM, IS, every byte of memory, TRACE_ENABLED and the loader mark
are unchanged; HLT also leaves the output, and a PRN of a register that exists the run state. For a PRN of one that
does not, the fault records the pc of the cycle and nothing else of the state changes, the output included: the spec's
decision D4 (60_exceptions.md R126, R127; log 7). TRACE_ENABLED as a field is log 1, the loader mark is the model's own
(log 3). -/
def Obligations.HltAndPrnFrame : Prop :=
  ∀ (i : Instr) (a : Byte) (s t : State), (i = .hlt ∨ i = .prn a) → exec i s = .next t →
    (∀ j, readReg t j = readReg s j) ∧ t.flags = s.flags ∧ t.intMask = s.intMask ∧
      t.intStatus = s.intStatus ∧ (∀ adr, t.mem.read adr = s.mem.read adr) ∧
      t.traceEnabled = s.traceEnabled ∧ t.programLoaded = s.programLoaded ∧ (i = .hlt → t.out = s.out) ∧
      (i = .prn a → a.toNat ≤ 7 → t.runState = s.runState) ∧
      (i = .prn a → 7 < a.toNat → t = { s with runState := .faulted .registerOutOfRange s.pc })

/-! ### Faults and terminal states -/

/-- 60_exceptions.md R122: RegisterOutOfRange is raised exactly when the executed instruction names a register index
8 to 255; operand B of LDI is never checked. -/
def Obligations.RegisterOutOfRangeExactlyOnBadIndex : Prop :=
  ∀ (i : Instr) (s t : State), s.runState = .running → exec i s = .next t →
    ((∃ p, t.runState = .faulted .registerOutOfRange p) ↔
      match i with
      | .hlt => False
      | .ldi a _ => 7 < a.toNat
      | .prn a => 7 < a.toNat
      | .add a b => 7 < a.toNat ∨ 7 < b.toNat
      | .sub a b => 7 < a.toNat ∨ 7 < b.toNat)

/-- 60_exceptions.md R121: the cases, and no others, in which a cycle raises AddressOutOfRange. That pc can stand above
255 is 10_state.md R18, the spec's decision D2 (log 8); that an unknown opcode at 254 or 255 and a bad register are not
among the cases is the order of the checks, D21 (log 17). -/
def Obligations.AddressOutOfRangeExactCases : Prop :=
  ∀ s t : State, s.runState = .running → step s = .next t →
    ((∃ p, t.runState = .faulted .addressOutOfRange p) ↔
      255 < s.pc.toNat ∨
      (s.pc.toNat = 255 ∧ ∃ op ∈ [(0x47 : Byte), 0x82, 0xA0, 0xA1], s.mem.read 255 = .ok op) ∨
      (s.pc.toNat = 254 ∧ ∃ op ∈ [(0x82 : Byte), 0xA0, 0xA1], s.mem.read 254 = .ok op))

/-- 60_exceptions.md R126 and R127 (the spec's decision D4, log 7): a faulting cycle records the kind and the pc of
the cycle, and changes nothing else at all. -/
def Obligations.FaultsArePrecise : Prop :=
  ∀ (s t : State) (k : ErrorKind) (p : PcWord), s.runState = .running → step s = .next t →
    t.runState = .faulted k p → p = s.pc ∧ t = { s with runState := .faulted k s.pc }

/-- 60_exceptions.md R130: the first failing check, in the order of the cycle, is the fault reported, and a cycle with
no failing check completes. The order is the spec's decision D21 (log 17), that the fault records the pc of the cycle
is D4 (R126, log 7), that pc can stand above 255 is D2 (10_state.md R18, log 8), that a completed cycle counts one is
D19 (10_state.md R24, log 10), and that HLT's cycle is a completed one is D3 (log 6). -/
def Obligations.FirstFailingCheckIsReported : Prop :=
  ∀ s : State, s.runState = .running →
    let p := s.pc.toNat
    let op := s.mem.get p
    let a := s.mem.get (p + 1)
    let b := s.mem.get (p + 2)
    ∃ t, step s = .next t ∧
      if 255 < p then t.runState = .faulted .addressOutOfRange s.pc
      else if op ∉ [(0x01 : Byte), 0x47, 0x82, 0xA0, 0xA1] then t.runState = .faulted .unknownOpcode s.pc
      else if op ≠ 0x01 ∧ p = 255 then t.runState = .faulted .addressOutOfRange s.pc
      else if op ≠ 0x01 ∧ op ≠ 0x47 ∧ p = 254 then t.runState = .faulted .addressOutOfRange s.pc
      else if op ≠ 0x01 ∧ 7 < a.toNat then t.runState = .faulted .registerOutOfRange s.pc
      else if (op = 0xA0 ∨ op = 0xA1) ∧ 7 < b.toNat then t.runState = .faulted .registerOutOfRange s.pc
      else t.runState = (if op = 0x01 then .halted else .running) ∧ t.cycles = s.cycles + 1

/-- 10_state.md R23: only HLT enters Halted, and only a fault enters Faulted. That the step which enters Faulted changes
only the run state is 60_exceptions.md R126 and R127, the spec's decision D4 (log 7). -/
def Obligations.OnlyHltHaltsAndOnlyFaultsFault : Prop :=
  ∀ s t : State, step s = .next t →
    (t.runState = .halted ↔
      s.runState = .halted ∨ (s.runState = .running ∧ s.mem.read s.pc.toNat = .ok 0x01)) ∧
    ((∃ k p, t.runState = .faulted k p) → (∃ k p, s.runState = .faulted k p) ∨
      (s.runState = .running ∧ t = { s with runState := t.runState }))

/-- 60_exceptions.md R134 (the spec's decision D28, log 18): only PRN emits, one value for each PRN executed, at the end
of the output sequence. That a faulting cycle emits nothing is R127, D4 (log 7), and that a terminal step does not is
D20 (log 2). -/
def Obligations.OnlyPrnEmits : Prop :=
  ∀ s t : State, step s = .next t →
    t.out = s.out ∨
      (s.runState = .running ∧ s.mem.read s.pc.toNat = .ok 0x47 ∧
        ∃ a v, s.mem.read (s.pc.toNat + 1) = .ok a ∧ readReg s a = .ok v ∧ t.out = s.out ++ [v])

/-- 60_exceptions.md R120 with decision D25 (log 16): the codes of the error kinds; different kinds have different
codes. -/
def Obligations.ErrorCodes : Prop :=
  ErrorKind.code .addressOutOfRange = 1 ∧ ErrorKind.code .registerOutOfRange = 2 ∧
    ErrorKind.code .unknownOpcode = 3 ∧ ErrorKind.code .unsupportedALUOperation = 4 ∧
    ErrorKind.code .programTooLarge = 5

/-! ### The loader port -/

/-- 70_reset_and_hazards.md R152, for a load into the core right after reset: a program of at most 256 bytes is
written from address 0 upward and every other cell stays 0; a longer one fails with ProgramTooLarge and gives no state
in which anything was written. -/
def Obligations.LaunchPlacesProgram : Prop :=
  ∀ (b : Bool) (program : List Byte),
    (program.length ≤ 256 → ∃ t, launch b program = .next t ∧
      (∀ k v, program[k]? = some v → t.mem.read k = .ok v) ∧
      (∀ k, program.length ≤ k → k ≤ 255 → t.mem.read k = .ok 0) ∧
      t.regs = (State.resetWith b).regs ∧ t.pc = 0 ∧ t.runState = .running) ∧
    (256 < program.length → launch b program = .fault .programTooLarge)

/-- The frame of the loader port, for every state in which it accepts a program (70_reset_and_hazards.md R152 and
R153; the condition and the loader mark are the model's, log 3): the program's cells are written, the other cells keep
their value, and nothing else changes; a longer program changes nothing. -/
def Obligations.LoaderWritesWholeProgramOrNothing : Prop :=
  ∀ (s : State) (program : List Byte), s.launchPending = true → s.mem.wf →
    (program.length ≤ 256 → ∃ t, load program s = .next t ∧
      (∀ k v, program[k]? = some v → t.mem.read k = .ok v) ∧
      (∀ k, program.length ≤ k → t.mem.read k = s.mem.read k) ∧
      t = { s with mem := t.mem, programLoaded := true }) ∧
    (256 < program.length → load program s = .fault .programTooLarge)

/-- 70_reset_and_hazards.md R153 (the spec's decision D9): the loader port accepts a program after reset, and refuses one
after a load and after any cycle. The condition by which the model tells these apart is its own (log 3). -/
def Obligations.LoaderRefusesOutsideLaunch : Prop :=
  (∀ (b : Bool) (program : List Byte), program.length ≤ 256 →
    ∃ t, load program (State.resetWith b) = .next t) ∧
  (∀ (s t : State) (first second : List Byte), load first s = .next t →
    load second t = .refused .loadOutsideLaunch) ∧
  ∀ (s t : State) (program : List Byte), s.runState = .running → step s = .next t →
    load program t = .refused .loadOutsideLaunch

/-! ### Whole-machine statements -/

/-- The invariant holds at reset (70_reset_and_hazards.md R150), whatever TRACE_ENABLED is. The zeros of IM and IS rest
on the spec's decision D5 (log 5), the empty output and trace and the zero count on D19 (log 10); canonical memory is
the model's form (log 14), and TRACE_ENABLED as a field is log 1. -/
def Obligations.ResetMeetsInv : Prop :=
  State.reset.Inv ∧ ∀ b, (State.resetWith b).Inv

/-- Loading a program (70_reset_and_hazards.md R152) keeps the invariant. Canonical memory is the model's form (log 14).
A halted core keeps standing just past an HLT because a load is refused then (R153, the spec's decision D9; the
window in which a load is accepted is the model's, log 3). -/
def Obligations.LoadKeepsInv : Prop :=
  ∀ (s t : State) (program : List Byte), s.Inv → load program s = .next t → t.Inv

/-- Every step keeps the invariant. Its clauses, with what each rests on: canonical memory (the model's form, log 14);
pc at most 256 (10_state.md R18, the spec's decision D2, log 8); FL zero (10_state.md R19, D5 and D6, log 5), IM and IS
zero (R20, D5, log 5); a fault record with a kind that a cycle can raise and the pc at which the core stands
(60_exceptions.md R126, R127, D4, log 7); a halted core just past an HLT (10_state.md R23 with the advance of HLT's
cycle, D3, log 6); the counts of completed cycles and of output values (10_state.md R24, D19, log 10, and for the
halted core D3); one trace record for each completed cycle, and none for a fault (60_exceptions.md R136, D7, log 9). That a terminal
step keeps them is 30_encoding.md R61, D20 (log 2). -/
def Obligations.StepKeepsInv : Prop :=
  ∀ s t : State, s.Inv → step s = .next t → t.Inv

/-- 20_memory.md R30 and R42, 10_state.md R19 and R20: no run changes a byte of memory, FL, IM or IS. Nor does one
change the two fields that the spec does not give as state: TRACE_ENABLED, an argument of the spec (log 1), and the
loader mark, the model's own (log 3). For a cycle that faults it is the decision D4 (60_exceptions.md R127, log 7), for
a terminal step D20 (log 2). -/
def Obligations.RunLeavesMemoryAndReservedRegisters : Prop :=
  ∀ (k : Nat) (s t : State), Sys2Proof.core.run k s = .next t →
    (∀ adr, t.mem.read adr = s.mem.read adr) ∧ t.flags = s.flags ∧ t.intMask = s.intMask ∧
      t.intStatus = s.intStatus ∧ t.traceEnabled = s.traceEnabled ∧ t.programLoaded = s.programLoaded

/-- 70_reset_and_hazards.md R158, a rule the spec derives: from every state, 257 steps reach a terminal state. That
pc does not wrap is the spec's decision D2 (log 8), and that a terminal state stays as it is D20 (log 2). -/
def Obligations.EveryRunTerminates : Prop :=
  ∀ s : State, ∃ t, Sys2Proof.core.run 257 s = .next t ∧ t.runState ≠ .running

/-- 60_exceptions.md R129: run() returns HaltedNormally when the run state in which it ends is Halted, and
Faulted(kind, pcAtFault) when it is Faulted. That it always ends in one of the two is 70_reset_and_hazards.md R158, a
rule the spec derives (with D2 and D20, log 8 and log 2), and that it ends where 257 steps end is the model's bound on
run() (log 11). -/
def Obligations.RunReturnsOutcome : Prop :=
  ∀ s : State, ∃ t, run s = .next t ∧ Sys2Proof.core.run 257 s = .next t ∧
    ((t.runState = .halted ∧ runOutcome s = some .haltedNormally) ∨
      ∃ k p, t.runState = .faulted k p ∧ runOutcome s = some (.faulted k p))

/-- 30_encoding.md R62 (the spec's decision D20, log 2): running again after a run ends changes nothing and returns the
same outcome. Where a run ends is the model's bound (log 11). -/
def Obligations.RunAgainReturnsSameOutcome : Prop :=
  ∀ s t : State, run s = .next t → run t = .next t ∧ runOutcome t = runOutcome s

/-- 95_test_vectors.md P7: a launched program completes at most 128 cycles and so emits at most 128 values. What
counts as a completed cycle is the spec's decisions D19 (log 10) and, for HLT's, D3 (log 6). The bound rests on pc not
wrapping past 255 (10_state.md R18, D2, log 8), on a faulting cycle emitting nothing (60_exceptions.md R127, D4, log 7)
and, for any number of steps, on terminal steps changing nothing (30_encoding.md R61, D20, log 2). -/
def Obligations.LaunchedRunCompletesAtMost128Cycles : Prop :=
  ∀ (b : Bool) (program : List Byte) (k : Nat) (s t : State), launch b program = .next s →
    Sys2Proof.core.run k s = .next t → t.cycles ≤ 128 ∧ t.out.length ≤ 128

/-- 70_reset_and_hazards.md R159, 10_state.md R24: registers, pc, memory, run state, the values emitted and the
cycles counted depend on nothing but the registers, pc, memory and run state at the start: not on TRACE_ENABLED, the
trace, the earlier output or count, FL, IM or IS. The records traced depend on these and on TRACE_ENABLED. What is
counted and traced is the spec's decisions D19 and D7 (log 10, log 9), and that a faulting cycle appends nothing D4
(log 7). -/
def Obligations.RunIgnoresObservationsAndReservedRegisters : Prop :=
  ∀ (k : Nat) (s s' t : State), s.regs = s'.regs → s.pc = s'.pc → s.mem = s'.mem → s.runState = s'.runState →
    Sys2Proof.core.run k s = .next t →
      ∃ t' o c r, Sys2Proof.core.run k s' = .next t' ∧ t.regs = t'.regs ∧ t.pc = t'.pc ∧ t.mem = t'.mem ∧
        t.runState = t'.runState ∧ t.out = s.out ++ o ∧ t'.out = s'.out ++ o ∧ t.cycles = s.cycles + c ∧
        t'.cycles = s'.cycles + c ∧ t.trace = s.trace ++ (if s.traceEnabled = true then r else []) ∧
        t'.trace = s'.trace ++ (if s'.traceEnabled = true then r else [])
end

