-- ==== Sys2Proof/Laws/Assembler.lean ====
section
/-! SUPPORT. The tokens of a line: a word is read whole, and a separator ends it. -/

namespace Sys2Proof

/-- A character that ends a word. -/
def isSeparator (c : Char) : Bool := decide (c = ' ' ∨ c = ',' ∨ c = '[' ∨ c = ']')

/-- The characters of a word are held until the word ends. -/
theorem tokens_append_word {w : List Char} (hw : ∀ c ∈ w, isSeparator c = false) (held rest : List Char) :
    tokens held (w ++ rest) = tokens (w.reverse ++ held) rest := by
  induction w generalizing held with
  | nil => rfl
  | cons c w ih =>
    obtain ⟨h1, h2, h3, h4⟩ : c ≠ ' ' ∧ c ≠ ',' ∧ c ≠ '[' ∧ c ≠ ']' := by
      simpa [isSeparator] using hw c List.mem_cons_self
    rw [List.cons_append, tokens, if_neg h1, if_neg h2, if_neg h3, if_neg h4,
      ih fun d hd => hw d (List.mem_cons_of_mem _ hd)]
    simp

/-- A word that is not empty, once it ends, is one token. -/
theorem endWord_reverse {w : List Char} (hw : w ≠ []) (ts : List Token) :
    endWord (w.reverse ++ []) ts = .word w :: ts := by
  simp [endWord, hw]

/-- A word that ends the line. -/
theorem tokens_word {w : List Char} (hne : w ≠ []) (hw : ∀ c ∈ w, isSeparator c = false) :
    tokens [] w = [.word w] := by
  have h := tokens_append_word hw [] []
  rw [List.append_nil, tokens, endWord_reverse hne] at h
  exact h

/-- A word before a comma and a space. -/
theorem tokens_word_comma {w : List Char} (hne : w ≠ []) (hw : ∀ c ∈ w, isSeparator c = false)
    (rest : List Char) : tokens [] (w ++ ',' :: ' ' :: rest) = .word w :: .comma :: tokens [] rest := by
  rw [tokens_append_word hw, tokens, if_neg (by decide), if_pos rfl, endWord_reverse hne, tokens, if_pos rfl]
  rfl

/-- A word before the closing bracket at the end of the line. -/
theorem tokens_word_closeBracket {w : List Char} (hne : w ≠ []) (hw : ∀ c ∈ w, isSeparator c = false) :
    tokens [] (w ++ [']']) = [.word w, .closeBracket] := by
  rw [tokens_append_word hw, tokens, if_neg (by decide), if_neg (by decide), if_neg (by decide), if_pos rfl,
    endWord_reverse hne]
  rfl

end Sys2Proof
end

