-- ==== Sys2Proof/Laws/Decode.lean ====
section
/-! SUPPORT. The laws of the decode table and of assembling an instruction. -/

namespace Sys2Proof

theorem rowOf_mnemonic (m : Mnemonic) : (rowOf m).mnemonic = m := by cases m <;> rfl

theorem rowOf_mem_decodeTable (m : Mnemonic) : rowOf m ∈ decodeTable := by cases m <;> decide

theorem lookupOpcode_rowOf (m : Mnemonic) : lookupOpcode (rowOf m).opcode = some (rowOf m) := by
  cases m <;> rfl

/-- The opcode byte determines the row. -/
theorem lookupOpcode_eq_some {op : Byte} {row : DecodeRow} :
    lookupOpcode op = some row ↔ ∃ m, row = rowOf m ∧ op = (rowOf m).opcode := by
  constructor
  · intro h
    have hop : row.opcode = op := by simpa using List.find?_some h
    have hmem := List.mem_of_find?_eq_some h
    simp only [decodeTable, List.mem_cons, List.not_mem_nil, or_false] at hmem
    obtain h | h | h | h | h := hmem <;> subst h <;> exact ⟨_, rfl, hop.symm⟩
  · rintro ⟨m, rfl, rfl⟩
    exact lookupOpcode_rowOf m

/-- An opcode byte without a row is none of the five. -/
theorem lookupOpcode_eq_none {op : Byte} :
    lookupOpcode op = none ↔ op ≠ 0x01 ∧ op ≠ 0x82 ∧ op ≠ 0x47 ∧ op ≠ 0xA0 ∧ op ≠ 0xA1 := by
  simp only [lookupOpcode, decodeTable, rowOf, List.find?_eq_none, List.forall_mem_cons, List.not_mem_nil,
    false_implies, implies_true, and_true, beq_iff_eq]
  simp only [← ne_eq, ne_comm]

namespace Instr

theorem opcode_eq (i : Instr) : i.opcode = (rowOf i.mnemonic).opcode := rfl

theorem operands_length (i : Instr) : i.operands.length = i.operandCount := by cases i <;> rfl

theorem operandCount_le_two (i : Instr) : i.operandCount ≤ 2 := by
  cases i <;> simp [operandCount, mnemonic, rowOf]

end Instr

theorem encode_length (i : Instr) : (encode i).length = 1 + i.operandCount := by
  rw [encode, List.length_cons, i.operands_length, Nat.add_comm]

/-- The instruction of a mnemonic with given operand bytes, of which it takes as many as it has. -/
def Mnemonic.instr (m : Mnemonic) (a b : Byte) : Instr :=
  match m with
  | .hlt => .hlt
  | .ldi => .ldi a b
  | .prn => .prn a
  | .add => .add a b
  | .sub => .sub a b

theorem Mnemonic.instr_mnemonic (m : Mnemonic) (a b : Byte) : (m.instr a b).mnemonic = m := by cases m <;> rfl

theorem Mnemonic.instr_operandCount (m : Mnemonic) (a b : Byte) :
    (m.instr a b).operandCount = (rowOf m).operandCount := by cases m <;> rfl

/-- Assembling succeeds exactly on the operand bytes of an instruction of the mnemonic. -/
theorem assemble_eq_ok {m : Mnemonic} {bs rest : List Byte} {i : Instr} :
    assemble m bs = .ok (i, rest) ↔ i.mnemonic = m ∧ bs = i.operands ++ rest := by
  constructor
  · intro h
    unfold assemble at h
    split at h <;> simp_all <;> obtain ⟨rfl, rfl⟩ := h <;> exact ⟨rfl, rfl⟩
  · rintro ⟨rfl, rfl⟩
    cases i <;> rfl

end Sys2Proof
end

