-- ==== Sys2Proof/Laws/State.lean ====
section
/-! SUPPORT. One lemma per field per update of State, each true by definition. -/

namespace Sys2Proof.Machine

variable (s : State)

/-! ### setReg -/

@[simp] theorem State.setReg_regs (i : Fin 8) (v : Byte) : (s.setReg i v).regs = s.regs.set i v := rfl
@[simp] theorem State.setReg_pc (i : Fin 8) (v : Byte) : (s.setReg i v).pc = s.pc := rfl
@[simp] theorem State.setReg_flags (i : Fin 8) (v : Byte) : (s.setReg i v).flags = s.flags := rfl
@[simp] theorem State.setReg_intMask (i : Fin 8) (v : Byte) : (s.setReg i v).intMask = s.intMask := rfl
@[simp] theorem State.setReg_intStatus (i : Fin 8) (v : Byte) : (s.setReg i v).intStatus = s.intStatus := rfl
@[simp] theorem State.setReg_mem (i : Fin 8) (v : Byte) : (s.setReg i v).mem = s.mem := rfl
@[simp] theorem State.setReg_runState (i : Fin 8) (v : Byte) : (s.setReg i v).runState = s.runState := rfl
@[simp] theorem State.setReg_out (i : Fin 8) (v : Byte) : (s.setReg i v).out = s.out := rfl
@[simp] theorem State.setReg_trace (i : Fin 8) (v : Byte) : (s.setReg i v).trace = s.trace := rfl
@[simp] theorem State.setReg_cycles (i : Fin 8) (v : Byte) : (s.setReg i v).cycles = s.cycles := rfl
@[simp] theorem State.setReg_traceEnabled (i : Fin 8) (v : Byte) : (s.setReg i v).traceEnabled = s.traceEnabled := rfl
@[simp] theorem State.setReg_programLoaded (i : Fin 8) (v : Byte) : (s.setReg i v).programLoaded = s.programLoaded := rfl

/-! ### setFlags -/

@[simp] theorem State.setFlags_regs (v : Byte) : (s.setFlags v).regs = s.regs := rfl
@[simp] theorem State.setFlags_pc (v : Byte) : (s.setFlags v).pc = s.pc := rfl
@[simp] theorem State.setFlags_flags (v : Byte) : (s.setFlags v).flags = v := rfl
@[simp] theorem State.setFlags_intMask (v : Byte) : (s.setFlags v).intMask = s.intMask := rfl
@[simp] theorem State.setFlags_intStatus (v : Byte) : (s.setFlags v).intStatus = s.intStatus := rfl
@[simp] theorem State.setFlags_mem (v : Byte) : (s.setFlags v).mem = s.mem := rfl
@[simp] theorem State.setFlags_runState (v : Byte) : (s.setFlags v).runState = s.runState := rfl
@[simp] theorem State.setFlags_out (v : Byte) : (s.setFlags v).out = s.out := rfl
@[simp] theorem State.setFlags_trace (v : Byte) : (s.setFlags v).trace = s.trace := rfl
@[simp] theorem State.setFlags_cycles (v : Byte) : (s.setFlags v).cycles = s.cycles := rfl
@[simp] theorem State.setFlags_traceEnabled (v : Byte) : (s.setFlags v).traceEnabled = s.traceEnabled := rfl
@[simp] theorem State.setFlags_programLoaded (v : Byte) : (s.setFlags v).programLoaded = s.programLoaded := rfl

/-! ### emitOut -/

@[simp] theorem State.emitOut_regs (v : Byte) : (s.emitOut v).regs = s.regs := rfl
@[simp] theorem State.emitOut_pc (v : Byte) : (s.emitOut v).pc = s.pc := rfl
@[simp] theorem State.emitOut_flags (v : Byte) : (s.emitOut v).flags = s.flags := rfl
@[simp] theorem State.emitOut_intMask (v : Byte) : (s.emitOut v).intMask = s.intMask := rfl
@[simp] theorem State.emitOut_intStatus (v : Byte) : (s.emitOut v).intStatus = s.intStatus := rfl
@[simp] theorem State.emitOut_mem (v : Byte) : (s.emitOut v).mem = s.mem := rfl
@[simp] theorem State.emitOut_runState (v : Byte) : (s.emitOut v).runState = s.runState := rfl
@[simp] theorem State.emitOut_out (v : Byte) : (s.emitOut v).out = s.out ++ [v] := rfl
@[simp] theorem State.emitOut_trace (v : Byte) : (s.emitOut v).trace = s.trace := rfl
@[simp] theorem State.emitOut_cycles (v : Byte) : (s.emitOut v).cycles = s.cycles := rfl
@[simp] theorem State.emitOut_traceEnabled (v : Byte) : (s.emitOut v).traceEnabled = s.traceEnabled := rfl
@[simp] theorem State.emitOut_programLoaded (v : Byte) : (s.emitOut v).programLoaded = s.programLoaded := rfl

/-! ### halt -/

@[simp] theorem State.halt_regs : (s.halt).regs = s.regs := rfl
@[simp] theorem State.halt_pc : (s.halt).pc = s.pc := rfl
@[simp] theorem State.halt_flags : (s.halt).flags = s.flags := rfl
@[simp] theorem State.halt_intMask : (s.halt).intMask = s.intMask := rfl
@[simp] theorem State.halt_intStatus : (s.halt).intStatus = s.intStatus := rfl
@[simp] theorem State.halt_mem : (s.halt).mem = s.mem := rfl
@[simp] theorem State.halt_runState : (s.halt).runState = .halted := rfl
@[simp] theorem State.halt_out : (s.halt).out = s.out := rfl
@[simp] theorem State.halt_trace : (s.halt).trace = s.trace := rfl
@[simp] theorem State.halt_cycles : (s.halt).cycles = s.cycles := rfl
@[simp] theorem State.halt_traceEnabled : (s.halt).traceEnabled = s.traceEnabled := rfl
@[simp] theorem State.halt_programLoaded : (s.halt).programLoaded = s.programLoaded := rfl

/-! ### raise -/

@[simp] theorem State.raise_regs (k : ErrorKind) : (s.raise k).regs = s.regs := rfl
@[simp] theorem State.raise_pc (k : ErrorKind) : (s.raise k).pc = s.pc := rfl
@[simp] theorem State.raise_flags (k : ErrorKind) : (s.raise k).flags = s.flags := rfl
@[simp] theorem State.raise_intMask (k : ErrorKind) : (s.raise k).intMask = s.intMask := rfl
@[simp] theorem State.raise_intStatus (k : ErrorKind) : (s.raise k).intStatus = s.intStatus := rfl
@[simp] theorem State.raise_mem (k : ErrorKind) : (s.raise k).mem = s.mem := rfl
@[simp] theorem State.raise_runState (k : ErrorKind) : (s.raise k).runState = .faulted k s.pc := rfl
@[simp] theorem State.raise_out (k : ErrorKind) : (s.raise k).out = s.out := rfl
@[simp] theorem State.raise_trace (k : ErrorKind) : (s.raise k).trace = s.trace := rfl
@[simp] theorem State.raise_cycles (k : ErrorKind) : (s.raise k).cycles = s.cycles := rfl
@[simp] theorem State.raise_traceEnabled (k : ErrorKind) : (s.raise k).traceEnabled = s.traceEnabled := rfl
@[simp] theorem State.raise_programLoaded (k : ErrorKind) : (s.raise k).programLoaded = s.programLoaded := rfl

/-! ### completeCycle -/

@[simp] theorem State.completeCycle_regs (i : Instr) : (s.completeCycle i).regs = s.regs := rfl
@[simp] theorem State.completeCycle_pc (i : Instr) : (s.completeCycle i).pc = s.pc + BitVec.ofNat 9 (1 + i.operandCount) := rfl
@[simp] theorem State.completeCycle_flags (i : Instr) : (s.completeCycle i).flags = s.flags := rfl
@[simp] theorem State.completeCycle_intMask (i : Instr) : (s.completeCycle i).intMask = s.intMask := rfl
@[simp] theorem State.completeCycle_intStatus (i : Instr) : (s.completeCycle i).intStatus = s.intStatus := rfl
@[simp] theorem State.completeCycle_mem (i : Instr) : (s.completeCycle i).mem = s.mem := rfl
@[simp] theorem State.completeCycle_runState (i : Instr) : (s.completeCycle i).runState = s.runState := rfl
@[simp] theorem State.completeCycle_out (i : Instr) : (s.completeCycle i).out = s.out := rfl
@[simp] theorem State.completeCycle_trace (i : Instr) : (s.completeCycle i).trace = if s.traceEnabled then s.trace ++ [s.traceRecord i] else s.trace := rfl
@[simp] theorem State.completeCycle_cycles (i : Instr) : (s.completeCycle i).cycles = s.cycles + 1 := rfl
@[simp] theorem State.completeCycle_traceEnabled (i : Instr) : (s.completeCycle i).traceEnabled = s.traceEnabled := rfl
@[simp] theorem State.completeCycle_programLoaded (i : Instr) : (s.completeCycle i).programLoaded = s.programLoaded := rfl

end Sys2Proof.Machine
end

