-- ==== Sys2Proof/Laws/Exec.lean ====
section
/-! SUPPORT. Everything the registers, the ALU and an instruction's meaning can do. -/

namespace Sys2Proof.Machine

theorem readReg_of_lt {s : State} {i : Byte} (h : i.toNat < 8) : readReg s i = .ok s.regs[i.toNat] := by
  simp [readReg, h]

theorem readReg_of_ge {s : State} {i : Byte} (h : 8 ≤ i.toNat) : readReg s i = .error .registerOutOfRange := by
  simp [readReg, Nat.not_lt.2 h]

theorem writeReg_of_lt {s : State} {i : Byte} (h : i.toNat < 8) (v : Int) :
    writeReg s i v = .ok (s.setReg ⟨i.toNat, h⟩ (BitVec.ofInt 8 v)) := by
  simp [writeReg, h]

theorem writeReg_of_ge {s : State} {i : Byte} (h : 8 ≤ i.toNat) (v : Int) :
    writeReg s i v = .error .registerOutOfRange := by
  simp [writeReg, Nat.not_lt.2 h]

/-- A register reads as the value last written to it, and every other register as before. -/
theorem readReg_setReg (s : State) (i : Fin 8) (v : Byte) (j : Byte) :
    readReg (s.setReg i v) j = if j.toNat = i then .ok v else readReg s j := by
  by_cases h : j.toNat < 8
  · rw [readReg_of_lt h, readReg_of_lt h]
    split_ifs with hj
    · simp [State.setReg, hj]
    · simp [State.setReg, Ne.symm hj]
  · rw [readReg_of_ge (Nat.not_lt.1 h), readReg_of_ge (Nat.not_lt.1 h), if_neg (by omega)]

/-- The exact value of a byte, reduced to 8 bits, is the byte. -/
theorem ofInt_immediate (b : Byte) : BitVec.ofInt 8 (immediate b) = b := by
  simp [immediate]

theorem ofInt_toNat_add (x y : Byte) : BitVec.ofInt 8 ((x.toNat : Int) + y.toNat) = x + y := by
  simp [BitVec.ofInt_add]

theorem ofInt_toNat_sub (x y : Byte) : BitVec.ofInt 8 ((x.toNat : Int) - y.toNat) = x - y := by
  apply BitVec.eq_of_toInt_eq
  rw [BitVec.toInt_ofInt, BitVec.toInt_sub, Int.sub_bmod, BitVec.toInt_eq_toNat_bmod, BitVec.toInt_eq_toNat_bmod]

@[simp] theorem State.setFlags_flagsAfterAlu (s : State) (x y : Byte) (r : Int) :
    s.setFlags (flagsAfterAlu s.flags x y r) = s := rfl

/-- Everything the ALU does (42_arithmetic.md R101, R102). -/
theorem aluApply_spec (op : AluTag) (d src : Byte) (s : State) :
    aluApply op d src s =
      if h : d.toNat < 8 ∧ src.toNat < 8 then
        match op with
        | .add => .ok (s.setReg ⟨d.toNat, h.1⟩ (s.regs[d.toNat] + s.regs[src.toNat]))
        | .sub => .ok (s.setReg ⟨d.toNat, h.1⟩ (s.regs[d.toNat] - s.regs[src.toNat]))
        | .other _ => .error .unsupportedALUOperation
      else .error .registerOutOfRange := by
  by_cases hd : d.toNat < 8
  · by_cases hs : src.toNat < 8
    · cases op <;> simp [aluApply, readReg_of_lt, hd, hs, aluResult, writeReg_of_lt, ofInt_toNat_add,
        ofInt_toNat_sub]
    · simp [aluApply, readReg_of_lt hd, readReg_of_ge (Nat.not_lt.1 hs), hs]
  · simp [aluApply, readReg_of_ge (Nat.not_lt.1 hd), hd]

theorem validIndex_iff {i : Byte} : validIndex i = true ↔ i.toNat < 8 := decide_eq_true_iff

@[simp] theorem wellFormed_hlt : Instr.wellFormed .hlt = true := rfl

@[simp] theorem wellFormed_ldi {a imm : Byte} : (Instr.ldi a imm).wellFormed = true ↔ a.toNat < 8 := by
  simp [Instr.wellFormed, Instr.registerOperands, validIndex_iff]

@[simp] theorem wellFormed_prn {a : Byte} : (Instr.prn a).wellFormed = true ↔ a.toNat < 8 := by
  simp [Instr.wellFormed, Instr.registerOperands, validIndex_iff]

@[simp] theorem wellFormed_add {a b : Byte} :
    (Instr.add a b).wellFormed = true ↔ a.toNat < 8 ∧ b.toNat < 8 := by
  simp [Instr.wellFormed, Instr.registerOperands, validIndex_iff]

@[simp] theorem wellFormed_sub {a b : Byte} :
    (Instr.sub a b).wellFormed = true ↔ a.toNat < 8 ∧ b.toNat < 8 := by
  simp [Instr.wellFormed, Instr.registerOperands, validIndex_iff]

/-- The state after the execute step of a well-formed instruction. -/
def Executed (s s' : State) : Instr → Prop
  | .hlt => s' = s.halt
  | .ldi a imm => ∃ h : a.toNat < 8, s' = s.setReg ⟨a.toNat, h⟩ imm
  | .prn a => ∃ h : a.toNat < 8, s' = s.emitOut (s.regs[a.toNat]'h)
  | .add a b => ∃ (h : a.toNat < 8) (h' : b.toNat < 8),
      s' = s.setReg ⟨a.toNat, h⟩ (s.regs[a.toNat]'h + s.regs[b.toNat]'h')
  | .sub a b => ∃ (h : a.toNat < 8) (h' : b.toNat < 8),
      s' = s.setReg ⟨a.toNat, h⟩ (s.regs[a.toNat]'h - s.regs[b.toNat]'h')

/-- A well-formed instruction completes its cycle with the effect of its rule. -/
theorem exec_of_wellFormed {i : Instr} (h : i.wellFormed = true) (s : State) :
    ∃ s', Executed s s' i ∧ exec i s = .next (s'.completeCycle i) := by
  cases i with
  | hlt => exact ⟨_, rfl, rfl⟩
  | ldi a imm =>
    have ha : a.toNat < 8 := by simpa using h
    exact ⟨_, ⟨ha, rfl⟩, by simp [exec, execLdi, writeReg_of_lt ha, ofInt_immediate, finishCycle]⟩
  | prn a =>
    have ha : a.toNat < 8 := by simpa using h
    exact ⟨_, ⟨ha, rfl⟩, by simp [exec, execPrn, readReg_of_lt ha, finishCycle, Except.map]⟩
  | add a b =>
    have hab : a.toNat < 8 ∧ b.toNat < 8 := by simpa using h
    exact ⟨_, ⟨hab.1, hab.2, rfl⟩, by simp [exec, execAdd, aluApply_spec, hab, finishCycle]⟩
  | sub a b =>
    have hab : a.toNat < 8 ∧ b.toNat < 8 := by simpa using h
    exact ⟨_, ⟨hab.1, hab.2, rfl⟩, by simp [exec, execSub, aluApply_spec, hab, finishCycle]⟩

/-- An instruction that names a register that does not exist raises RegisterOutOfRange. -/
theorem exec_of_not_wellFormed {i : Instr} (h : i.wellFormed = false) (s : State) :
    exec i s = .next (s.raise .registerOutOfRange) := by
  rw [← Bool.not_eq_true] at h
  cases i with
  | hlt => simp at h
  | ldi a imm =>
    have ha : 8 ≤ a.toNat := by simpa using h
    simp [exec, execLdi, writeReg_of_ge ha, finishCycle]
  | prn a =>
    have ha : 8 ≤ a.toNat := by simpa using h
    simp [exec, execPrn, readReg_of_ge ha, finishCycle, Except.map]
  | add a b =>
    rw [wellFormed_add] at h
    simp [exec, execAdd, aluApply_spec, h, finishCycle]
  | sub a b =>
    rw [wellFormed_sub] at h
    simp [exec, execSub, aluApply_spec, h, finishCycle]

/-- Everything an instruction can do: complete with the effect of its rule, or raise RegisterOutOfRange. -/
theorem exec_cases {i : Instr} {s t : State} (h : exec i s = .next t) :
    (i.wellFormed = true ∧ ∃ s', Executed s s' i ∧ t = s'.completeCycle i) ∨
      (i.wellFormed = false ∧ t = s.raise .registerOutOfRange) := by
  cases hw : i.wellFormed with
  | true =>
    obtain ⟨s', he, hx⟩ := exec_of_wellFormed hw s
    rw [hx] at h
    exact .inl ⟨rfl, s', he, by injection h with h; exact h.symm⟩
  | false =>
    rw [exec_of_not_wellFormed hw] at h
    exact .inr ⟨rfl, by injection h with h; exact h.symm⟩

/-- The execute step touches only the registers, the output sequence and the run state. -/
theorem Executed.frame {s s' : State} {i : Instr} (h : Executed s s' i) :
    s' = { s with regs := s'.regs, out := s'.out, runState := s'.runState } := by
  cases i with
  | hlt => cases h; rfl
  | ldi a imm => obtain ⟨_, rfl⟩ := h; rfl
  | prn a => obtain ⟨_, rfl⟩ := h; rfl
  | add a b => obtain ⟨_, _, rfl⟩ := h; rfl
  | sub a b => obtain ⟨_, _, rfl⟩ := h; rfl

end Sys2Proof.Machine
end

