-- ==== Sys2Proof/Laws/Memory.lean ====
section
/-! SUPPORT. The laws of memory: reading after writing, and the canonical form. -/

namespace Sys2Proof.Machine

/-- Every listed address lies above a bound. -/
def Memory.Above (m : Memory) (a : Nat) : Prop := ∀ c ∈ m, a < c.1

theorem Memory.wf_nil : Memory.wf [] := ⟨.nil, by simp⟩

theorem Memory.wf_tail {c : Host.Cell} {m : Memory} (h : Memory.wf (c :: m)) : m.wf :=
  ⟨(List.pairwise_cons.1 h.1).2, fun d hd => h.2 d (List.mem_cons_of_mem _ hd)⟩

theorem Memory.wf_head_above {c : Host.Cell} {m : Memory} (h : Memory.wf (c :: m)) : m.Above c.1 :=
  (List.pairwise_cons.1 h.1).1

theorem Memory.wf_head {c : Host.Cell} {m : Memory} (h : Memory.wf (c :: m)) :
    c.1 < Config.memSize ∧ c.2 ≠ Memory.unlisted :=
  h.2 c List.mem_cons_self

theorem Memory.wf_cons {k : Nat} {w : Byte} {m : Memory} (hm : m.wf) (ha : m.Above k)
    (hk : k < Config.memSize) (hw : w ≠ Memory.unlisted) : Memory.wf ((k, w) :: m) :=
  ⟨List.pairwise_cons.2 ⟨ha, hm.1⟩, List.forall_mem_cons.2 ⟨⟨hk, hw⟩, hm.2⟩⟩

theorem Memory.above_mono {m : Memory} {a b : Nat} (h : m.Above b) (hab : a < b) : m.Above a :=
  fun c hc => Nat.lt_trans hab (h c hc)

theorem Memory.get_of_above {m : Memory} {a b : Nat} (h : m.Above b) (hab : a ≤ b) :
    m.get a = Memory.unlisted := by
  induction m with
  | nil => rfl
  | cons c m ih =>
    have hc : b < c.1 := h c List.mem_cons_self
    simp [Memory.get, show c.1 ≠ a by omega, ih fun d hd => h d (List.mem_cons_of_mem _ hd)]

theorem Memory.set_above {m : Memory} {a b : Nat} {v : Byte} (h : m.Above b) (hab : b < a) :
    (m.set a v).Above b := by
  induction m with
  | nil =>
    unfold Memory.set
    split
    · exact h
    · simpa [Memory.Above] using hab
  | cons c m ih =>
    have hc : b < c.1 := h c List.mem_cons_self
    have hm : Memory.Above m b := fun d hd => h d (List.mem_cons_of_mem _ hd)
    unfold Memory.set
    split_ifs
    · exact h
    · exact List.forall_mem_cons.2 ⟨hab, h⟩
    · exact hm
    · exact List.forall_mem_cons.2 ⟨hab, hm⟩
    · exact List.forall_mem_cons.2 ⟨hc, ih hm⟩

/-- Writing a cell keeps the canonical form. -/
theorem Memory.set_wf {m : Memory} (h : m.wf) {a : Nat} (ha : a < Config.memSize) (v : Byte) :
    (m.set a v).wf := by
  induction m with
  | nil =>
    unfold Memory.set
    split
    · exact h
    · exact Memory.wf_cons h (by simp [Memory.Above]) ha ‹_›
  | cons c m ih =>
    have hm := Memory.wf_tail h
    have hab := Memory.wf_head_above h
    unfold Memory.set
    split_ifs with h1 h2 h2 h3
    · exact h
    · exact Memory.wf_cons h (List.forall_mem_cons.2 ⟨h1, Memory.above_mono hab h1⟩) ha h2
    · exact hm
    · exact Memory.wf_cons hm (h2 ▸ hab) ha h3
    · exact Memory.wf_cons (ih hm) (Memory.set_above hab (by omega)) (Memory.wf_head h).1 (Memory.wf_head h).2

/-- A cell reads as the value last written to it, and every other cell as before. -/
theorem Memory.get_set {m : Memory} (h : m.wf) (a : Nat) (v : Byte) (b : Nat) :
    (m.set a v).get b = if b = a then v else m.get b := by
  induction m with
  | nil =>
    by_cases hv : v = Memory.unlisted <;> by_cases hb : b = a <;>
      simp [Memory.set, Memory.get, hv, hb, Ne.symm]
  | cons c m ih =>
    have hab := Memory.wf_head_above h
    have hget : Memory.get (c :: m) b = if c.1 = b then c.2 else Memory.get m b := rfl
    have hset : Memory.set (c :: m) a v =
        if a < c.1 then if v = Memory.unlisted then c :: m else (a, v) :: c :: m
        else if a = c.1 then if v = Memory.unlisted then m else (a, v) :: m
        else c :: Memory.set m a v := rfl
    rw [hset]
    split_ifs with h1 hv hb hb h2 hv hb
    · rw [hget, if_neg (by omega), Memory.get_of_above hab (by omega), hv]
    · rfl
    · simp [Memory.get, hb]
    · simp [Memory.get, Ne.symm hb]
    · rw [Memory.get_of_above hab (by omega), hv]
    · rw [hget, if_neg (by omega)]
    · simp [Memory.get, ‹b = a›]
    · simp [Memory.get, show ¬a = b by omega, show ¬c.1 = b by omega]
    · have hcb : ¬c.1 = b := by omega
      simp [Memory.get, hcb, ih (Memory.wf_tail h)]
      exact fun hb => absurd ‹b = a› hb
    · simp [Memory.get, ih (Memory.wf_tail h), ‹¬b = a›]

theorem Memory.read_of_lt {m : Memory} {a : Nat} (h : a < 256) : m.read a = .ok (m.get a) := by
  simp [Memory.read, h]

theorem Memory.read_of_ge {m : Memory} {a : Nat} (h : 256 ≤ a) : m.read a = .error .addressOutOfRange := by
  simp [Memory.read, Nat.not_lt.2 h]

theorem Memory.read_eq_ok {m : Memory} {a : Nat} {v : Byte} : m.read a = .ok v ↔ a < 256 ∧ m.get a = v := by
  by_cases h : a < 256 <;> simp [Memory.read, h]

theorem Memory.write_of_lt {m : Memory} {a : Nat} (h : a < 256) (v : Nat) :
    m.write a v = .ok (m.set a (BitVec.ofNat 8 v)) := by
  simp [Memory.write, h]

theorem Memory.write_of_ge {m : Memory} {a : Nat} (h : 256 ≤ a) (v : Nat) :
    m.write a v = .error .addressOutOfRange := by
  simp [Memory.write, Nat.not_lt.2 h]

/-- Storing one byte of a sequence. -/
theorem Memory.writeBytes_cons (m : Memory) (a : Nat) (v : Byte) (vs : List Byte) :
    m.writeBytes a (v :: vs) = Memory.writeBytes (if a < 256 then m.set a v else m) (a + 1) vs := by
  by_cases h : a < 256
  · simp [Memory.writeBytes, Memory.write_of_lt h, h]
  · simp [Memory.writeBytes, Memory.write_of_ge (Nat.not_lt.1 h), h]

/-- Storing a sequence of bytes keeps the canonical form. -/
theorem Memory.writeBytes_wf {m : Memory} (h : m.wf) (a : Nat) (vs : List Byte) : (m.writeBytes a vs).wf := by
  induction vs generalizing m a with
  | nil => exact h
  | cons v vs ih =>
    rw [Memory.writeBytes_cons]
    split_ifs with ha
    · exact ih (Memory.set_wf h ha v) _
    · exact ih h _

/-- A cell below the stored bytes reads as before. -/
theorem Memory.get_writeBytes_below {m : Memory} (h : m.wf) {a : Nat} (vs : List Byte) {b : Nat} (hb : b < a) :
    (m.writeBytes a vs).get b = m.get b := by
  induction vs generalizing m a with
  | nil => rfl
  | cons v vs ih =>
    rw [Memory.writeBytes_cons]
    split_ifs with ha
    · rw [ih (Memory.set_wf h ha v) (by omega), Memory.get_set h, if_neg (by omega)]
    · exact ih h (by omega)

/-- A cell above the stored bytes reads as before. -/
theorem Memory.get_writeBytes_above {m : Memory} (h : m.wf) {a : Nat} (vs : List Byte) {b : Nat}
    (hb : a + vs.length ≤ b) : (m.writeBytes a vs).get b = m.get b := by
  induction vs generalizing m a with
  | nil => rfl
  | cons v vs ih =>
    rw [List.length_cons] at hb
    rw [Memory.writeBytes_cons]
    split_ifs with ha
    · rw [ih (Memory.set_wf h ha v) (by omega), Memory.get_set h, if_neg (by omega)]
    · exact ih h (by omega)

/-- A stored byte is read back. -/
theorem Memory.get_writeBytes_at {m : Memory} (h : m.wf) {a : Nat} {vs : List Byte} {k : Nat} {v : Byte}
    (hk : vs[k]? = some v) (hlt : a + k < 256) : (m.writeBytes a vs).get (a + k) = v := by
  induction vs generalizing m a k with
  | nil => simp at hk
  | cons w vs ih =>
    rw [Memory.writeBytes_cons, if_pos (by omega)]
    have hw := Memory.set_wf h (show a < Config.memSize by simp; omega) w
    cases k with
    | zero =>
      rw [Nat.add_zero, Memory.get_writeBytes_below hw vs (by omega), Memory.get_set h]
      simpa using hk
    | succ k =>
      rw [show a + (k + 1) = a + 1 + k by omega]
      exact ih hw (by simpa using hk) (by omega)

end Sys2Proof.Machine
end

