-- ==== Sys2Proof/Laws/Fetch.lean ====
section
/-! SUPPORT. Everything a fetch can do. -/

namespace Sys2Proof.Machine

/-- Operand bytes are read unless one of them lies past address 255. -/
theorem fetchOperands_eq (m : Memory) (addr n : Nat) :
    fetchOperands m addr n =
      if n = 0 ∨ addr + n ≤ 256 then .ok ((List.range' addr n).map m.get) else .error .addressOutOfRange := by
  induction n generalizing addr with
  | zero => simp [fetchOperands]
  | succ n ih =>
    rw [fetchOperands, ih]
    by_cases ha : addr < 256
    · by_cases hn : addr + (n + 1) ≤ 256
      · simp [Memory.read_of_lt ha, hn, show addr + 1 + n ≤ 256 by omega, List.range'_succ]
      · simp [Memory.read_of_lt ha, hn, show ¬(addr + 1 + n ≤ 256) by omega, show n ≠ 0 by omega]
    · simp [Memory.read_of_ge (Nat.not_lt.1 ha), show ¬(addr + (n + 1) ≤ 256) by omega]

/-- The whole of a fetch: the first failing check of the cycle, or the instruction at pc. -/
theorem fetch_spec (s : State) :
    fetch s =
      if 256 ≤ s.pc.toNat then .error .addressOutOfRange
      else
        match lookupOpcode (s.mem.get s.pc.toNat) with
        | none => .error .unknownOpcode
        | some row =>
          if row.operandCount ≠ 0 ∧ 256 < s.pc.toNat + 1 + row.operandCount then .error .addressOutOfRange
          else .ok (row.mnemonic.instr (s.mem.get (s.pc.toNat + 1)) (s.mem.get (s.pc.toNat + 2))) := by
  by_cases hp : 256 ≤ s.pc.toNat
  · simp [fetch, Memory.read_of_ge hp, hp]
  · rw [fetch, Memory.read_of_lt (by omega), if_neg hp]
    cases hrow : lookupOpcode (s.mem.get s.pc.toNat) with
    | none => simp [hrow]
    | some row =>
      obtain ⟨m, rfl, -⟩ := lookupOpcode_eq_some.1 hrow
      simp only [hrow, fetchOperands_eq]
      by_cases hn : (rowOf m).operandCount = 0 ∨ s.pc.toNat + 1 + (rowOf m).operandCount ≤ 256
      · rw [if_pos hn, if_neg (by omega)]
        cases m <;> rfl
      · rw [if_neg hn, if_pos (by omega)]

/-- A fetched instruction: its bytes stand at pc, none past address 255. -/
theorem fetch_eq_ok {s : State} {i : Instr} :
    fetch s = .ok i ↔
      s.pc.toNat + i.operandCount < 256 ∧ s.mem.get s.pc.toNat = i.opcode ∧
        (∀ a, i.operandA = some a → s.mem.get (s.pc.toNat + 1) = a) ∧
        (∀ b, i.operandB = some b → s.mem.get (s.pc.toNat + 2) = b) := by
  rw [fetch_spec]
  constructor
  · intro h
    split at h
    · cases h
    · split at h
      · cases h
      · rename_i row hrow
        obtain ⟨m, rfl, hop⟩ := lookupOpcode_eq_some.1 hrow
        split at h
        · cases h
        · cases h
          rw [rowOf_mnemonic]
          refine ⟨?_, ?_, ?_, ?_⟩
          · rw [m.instr_operandCount]; omega
          · rw [Instr.opcode, m.instr_mnemonic, hop]
          · cases m <;> simp [Mnemonic.instr, Instr.operandA]
          · cases m <;> simp [Mnemonic.instr, Instr.operandB]
  · rintro ⟨hp, hop, ha, hb⟩
    have hrow : lookupOpcode (s.mem.get s.pc.toNat) = some (rowOf i.mnemonic) := by
      rw [hop, Instr.opcode_eq, lookupOpcode_rowOf]
    rw [if_neg (by omega), hrow]
    simp only [rowOf_mnemonic]
    rw [if_neg (by simp only [Instr.operandCount] at hp; omega)]
    cases i <;> simp_all [Mnemonic.instr, Instr.mnemonic, Instr.operandA, Instr.operandB]

end Sys2Proof.Machine
end

