-- ==== Sys2Proof/Laws/PerInstr.lean ====
section
/-! SUPPORT. Families of statements about every instruction as syntax. -/

/-- The encoding of an instruction is as long as the decode table says and begins with the table's opcode
(30_encoding.md R50, R53). -/
def Sys2Proof.Laws.EncodedLength.Statement (i : Sys2Proof.Instr) : Prop :=
  (Sys2Proof.encode i).length = 1 + (Sys2Proof.rowOf i.mnemonic).operandCount ∧
    (Sys2Proof.encode i).head? = some (Sys2Proof.rowOf i.mnemonic).opcode

theorem Sys2Proof.Laws.EncodedLength.hlt : Sys2Proof.Laws.EncodedLength.Statement .hlt := ⟨rfl, rfl⟩

theorem Sys2Proof.Laws.EncodedLength.ldi (a imm : Sys2Proof.Byte) :
    Sys2Proof.Laws.EncodedLength.Statement (.ldi a imm) := ⟨rfl, rfl⟩

theorem Sys2Proof.Laws.EncodedLength.prn (a : Sys2Proof.Byte) :
    Sys2Proof.Laws.EncodedLength.Statement (.prn a) := ⟨rfl, rfl⟩

theorem Sys2Proof.Laws.EncodedLength.add (a b : Sys2Proof.Byte) :
    Sys2Proof.Laws.EncodedLength.Statement (.add a b) := ⟨rfl, rfl⟩

theorem Sys2Proof.Laws.EncodedLength.sub (a b : Sys2Proof.Byte) :
    Sys2Proof.Laws.EncodedLength.Statement (.sub a b) := ⟨rfl, rfl⟩
end

