-- ==== Sys2Proof/Laws/Step.lean ====
section
/-! SUPPORT. Everything a step can do. -/

namespace Sys2Proof.Machine

theorem step_of_terminal {s : State} (h : s.runState ≠ .running) : step s = .next s := by
  unfold step
  split
  · contradiction
  · rfl
  · rfl

theorem step_of_running {s : State} (h : s.runState = .running) : step s = cycleWith exec s := by
  simp [step, h]

theorem step_of_fetch_error {s : State} {k : ErrorKind} (h : s.runState = .running) (hf : fetch s = .error k) :
    step s = .next (s.raise k) := by
  simp [step_of_running h, cycleWith, hf]

theorem step_of_fetch_ok {s : State} {i : Instr} (h : s.runState = .running) (hf : fetch s = .ok i) :
    step s = exec i s := by
  simp [step_of_running h, cycleWith, hf]

/-- The kinds a failing fetch raises. -/
theorem fetch_error_kind {s : State} {k : ErrorKind} (h : fetch s = .error k) :
    k = .addressOutOfRange ∨ k = .unknownOpcode := by
  rw [fetch_spec] at h
  split at h
  · cases h; simp
  · split at h
    · cases h; simp
    · split at h
      · cases h; simp
      · cases h

/-- Every step answers a next state, one of: the same terminal state; a fault; a completed cycle. -/
theorem step_cases (s : State) :
    (s.runState ≠ .running ∧ step s = .next s) ∨
      (s.runState = .running ∧ ∃ k, k.raisedByCycle ∧ step s = .next (s.raise k)) ∨
      (s.runState = .running ∧ ∃ i s', fetch s = .ok i ∧ i.wellFormed = true ∧ Executed s s' i ∧
        step s = .next (s'.completeCycle i)) := by
  by_cases hr : s.runState = .running
  · cases hf : fetch s with
    | error k =>
      refine .inr (.inl ⟨hr, k, ?_, step_of_fetch_error hr hf⟩)
      obtain rfl | rfl := fetch_error_kind hf <;> trivial
    | ok i =>
      rw [step_of_fetch_ok hr hf]
      cases hw : i.wellFormed with
      | true =>
        obtain ⟨s', he, hx⟩ := exec_of_wellFormed hw s
        exact .inr (.inr ⟨hr, i, s', rfl, hw, he, hx⟩)
      | false => exact .inr (.inl ⟨hr, .registerOutOfRange, trivial, exec_of_not_wellFormed hw s⟩)
  · exact .inl ⟨hr, step_of_terminal hr⟩

/-- A step always answers a next state. -/
theorem step_next (s : State) : ∃ t, step s = .next t := by
  obtain ⟨_, h⟩ | ⟨_, k, _, h⟩ | ⟨_, i, s', _, _, _, h⟩ := step_cases s
  · exact ⟨_, h⟩
  · exact ⟨_, h⟩
  · exact ⟨_, h⟩

/-- A completed cycle moves pc past its instruction, and pc does not wrap. -/
theorem completeCycle_pc_toNat {s s' : State} {i : Instr} (hf : fetch s = .ok i) (he : Executed s s' i) :
    (s'.completeCycle i).pc.toNat = s.pc.toNat + 1 + i.operandCount := by
  have hp := (fetch_eq_ok.1 hf).1
  have hpc : s'.pc = s.pc := by rw [he.frame]
  have h2 := i.operandCount_le_two
  rw [State.completeCycle_pc, hpc, BitVec.toNat_add, BitVec.toNat_ofNat]
  omega

end Sys2Proof.Machine
end

