-- ==== Sys2Proof/Laws/Run.lean ====
section
/-! SUPPORT. Runs of many steps: the induction over them, packaged once. -/

namespace Sys2Proof.Machine

theorem core_run_zero (s : State) : Sys2Proof.core.run 0 s = .next s := rfl

theorem core_run_succ {s t : State} (h : step s = .next t) (k : Nat) :
    Sys2Proof.core.run (k + 1) s = Sys2Proof.core.run k t := by
  have hc : Sys2Proof.core.step s = .next t := h
  exact (Host.Core.run.eq_2 Sys2Proof.core s k).trans (by rw [hc])

/-- A run of any length answers a next state. -/
theorem core_run_next (k : Nat) (s : State) : ∃ t, Sys2Proof.core.run k s = .next t := by
  induction k generalizing s with
  | zero => exact ⟨s, rfl⟩
  | succ k ih =>
    obtain ⟨t, ht⟩ := step_next s
    rw [core_run_succ ht]
    exact ih t

/-- What every step keeps, every run keeps. -/
theorem core_run_keeps {P : State → Prop} (hstep : ∀ s t, P s → step s = .next t → P t) {k : Nat} {s t : State}
    (hs : P s) (h : Sys2Proof.core.run k s = .next t) : P t := by
  induction k generalizing s with
  | zero => cases h; exact hs
  | succ k ih =>
    obtain ⟨u, hu⟩ := step_next s
    rw [core_run_succ hu] at h
    exact ih (hstep s u hs hu) h

theorem core_run_of_terminal {s : State} (h : s.runState ≠ .running) (k : Nat) :
    Sys2Proof.core.run k s = .next s := by
  induction k with
  | zero => rfl
  | succ k ih => rw [core_run_succ (step_of_terminal h), ih]

theorem runLoop_of_terminal {s : State} (h : s.runState ≠ .running) (k : Nat) : runLoop k s = .next s := by
  cases k with
  | zero => rfl
  | succ k =>
    rw [runLoop]
    split
    · contradiction
    · rfl
    · rfl

theorem runLoop_succ {s t : State} (hs : s.runState = .running) (h : step s = .next t) (k : Nat) :
    runLoop (k + 1) s = runLoop k t := by
  simp only [runLoop, hs, h]

/-- The loop of run() ends where the same number of steps ends, since a step in a terminal state changes
nothing. -/
theorem runLoop_eq_core_run (k : Nat) (s : State) : runLoop k s = Sys2Proof.core.run k s := by
  induction k generalizing s with
  | zero => rfl
  | succ k ih =>
    by_cases hs : s.runState = .running
    · obtain ⟨t, ht⟩ := step_next s
      rw [runLoop_succ hs ht, core_run_succ ht, ih]
    · rw [runLoop_of_terminal hs, core_run_of_terminal hs]
      rfl

end Sys2Proof.Machine
end

