-- ==== Sys2Proof/Tests/Slice0.lean ====
section
/-! SUPPORT. The author's own tests. Expected results are those of spec/95_test_vectors.md and the examples in the
instructions' rules; a witness theorem shows that the hypotheses of a statement can be met. -/

open Sys2Proof Sys2Proof.Machine

namespace Sys2Proof.Tests

/-- A Running core with given bytes at a given pc and some registers set, the trace port connected. -/
def coreAt (pc : PcWord) (bytes : List Byte) (regs : RegFile := #v[250, 10, 2, 5, 255, 0, 0, 0xF4]) : State :=
  { State.resetWith true with pc := pc, mem := Memory.writeBytes [] pc.toNat bytes, regs := regs }

/-- The next state of an outcome. -/
def nextOf (o : Host.Outcome State Fault Refusal) : Option State :=
  match o with
  | .next t => some t
  | .fault _ => none
  | .refused _ => none

/-! ### Well-formedness -/

theorem test_wellFormed_accepts : (Instr.add 7 0).wellFormed = true := by decide
theorem test_wellFormed_refuses_ldi_a : (Instr.ldi 8 1).wellFormed = false := by decide
theorem test_wellFormed_refuses_prn_a : (Instr.prn 0x80).wellFormed = false := by decide
theorem test_wellFormed_refuses_add_a : (Instr.add 8 0).wellFormed = false := by decide
theorem test_wellFormed_refuses_add_b : (Instr.add 0 8).wellFormed = false := by decide
theorem test_wellFormed_refuses_sub_a : (Instr.sub 9 0).wellFormed = false := by decide
theorem test_wellFormed_refuses_sub_b : (Instr.sub 0 0xFF).wellFormed = false := by decide
theorem test_wellFormed_ignores_immediate : (Instr.ldi 7 0xFF).wellFormed = true := by decide

/-! ### Decoding: words written out bit by bit from 30_encoding.md R53 and R51 -/

theorem test_decode_hlt : decode [0b00000001] = .ok (.hlt, []) := by decide
theorem test_decode_ldi : decode [0b10000010, 0b00000011, 0b11111111] = .ok (.ldi 3 255, []) := by decide
theorem test_decode_prn : decode [0b01000111, 0b00000111, 0b00000001] = .ok (.prn 7, [1]) := by decide
theorem test_decode_add : decode [0b10100000, 0b00000010, 0b00000001] = .ok (.add 2 1, []) := by decide
theorem test_decode_sub : decode [0b10100001, 0b00000010, 0b00000001] = .ok (.sub 2 1, []) := by decide
theorem test_decode_unknown :
    ∀ op ∈ [(0x00 : Byte), 0x02, 0x40, 0x46, 0x80, 0x81, 0x83, 0xA2, 0xA8, 0xC1, 0xFF],
      decode [op, 0, 0] = .error (.unknownOpcode op) := by decide
theorem test_decode_truncated : decode [0xA0, 0x00] = .error (.missingOperand .add) := by decide
theorem test_table_word : decodeTableWord 24 0x0803A1 = some (.sub 3 8) := by decide
theorem test_table_word_short : decodeTableWord 8 0x0803A1 = some (.sub 0 0) := by decide

/-! ### Assembler syntax (30_encoding.md R64; 95_test_vectors.md P1 to P3) -/

theorem test_assemble_program :
    assembleProgram ["LDI R0, 8".toList, "PRN R0".toList, "HLT".toList] = some [0x82, 0x00, 0x08, 0x47, 0x00, 0x01] := by
  decide
theorem test_assemble_sub : assembleLine "SUB R3, R7".toList = some [0xA1, 0x03, 0x07] := by decide
theorem test_assemble_hexadecimal : assembleLine "LDI R3, 0xFF".toList = some [0x82, 0x03, 0xFF] := by decide
theorem test_assemble_byte_list : assembleLine "[LDI, 8, 1]".toList = some [0x82, 0x08, 0x01] := by decide
theorem test_assemble_byte_list_program : assembleLine "[LDI, 0, 8, PRN, 0, HLT]".toList =
    some [0x82, 0x00, 0x08, 0x47, 0x00, 0x01] := by decide
theorem test_assemble_refuses_R8 : assembleLine "LDI R8, 1".toList = none := by decide
theorem test_assemble_refuses_256 : assembleLine "LDI R1, 256".toList = none := by decide

/-! ### Instructions (95_test_vectors.md, part 2) -/

theorem test_hlt_at_top : (nextOf (step (coreAt 255 [0x01]))).map (fun t => (t.runState, t.pc)) =
    some (.halted, 256) := by decide
theorem test_ldi_last_address : (nextOf (step (coreAt 253 [0x82, 0x01, 0x09]))).map (fun t => (t.regs[1], t.pc)) =
    some (9, 256) := by decide
theorem test_ldi_bad_index : (nextOf (step (coreAt 10 [0x82, 0xFF, 0x01]))).map (fun t => (t.runState, t.pc)) =
    some (.faulted .registerOutOfRange 10, 10) := by decide
theorem test_prn_sp : (nextOf (step (coreAt 254 [0x47, 0x07]))).map (fun t => (t.out, t.pc)) =
    some ([244], 256) := by decide
theorem test_prn_bad_index : (nextOf (step (coreAt 0 [0x47, 0x08]))).map (fun t => (t.out, t.runState)) =
    some ([], .faulted .registerOutOfRange 0) := by decide
theorem test_add_wraps : (nextOf (step (coreAt 0 [0xA0, 0x00, 0x01]))).map (fun t => (t.regs[0], t.regs[1])) =
    some (4, 10) := by decide
theorem test_add_same_register :
    (nextOf (step (coreAt 0 [0xA0, 0x02, 0x02] #v[0, 0, 200, 0, 0, 0, 0, 0]))).map (fun t => t.regs[2]) =
      some 144 := by decide
theorem test_sub_wraps : (nextOf (step (coreAt 0 [0xA1, 0x02, 0x03]))).map (fun t => (t.regs[2], t.regs[3])) =
    some (253, 5) := by decide
theorem test_sub_bad_index : (nextOf (step (coreAt 0 [0xA1, 0x09, 0x00]))).map (·.runState) =
    some (.faulted .registerOutOfRange 0) := by decide

/-! ### The cycle, faults and the trace port -/

theorem test_unknown_before_operands : (nextOf (step (coreAt 254 [0xC3, 0xFF]))).map (·.runState) =
    some (.faulted .unknownOpcode 254) := by decide
theorem test_operand_fetch_before_register_check : (nextOf (step (coreAt 254 [0x82, 0x09]))).map (·.runState) =
    some (.faulted .addressOutOfRange 254) := by decide
theorem test_opcode_fetch_past_top : (nextOf (step (coreAt 256 []))).map (·.runState) =
    some (.faulted .addressOutOfRange 256) := by decide
theorem test_trace_record : (nextOf (step (coreAt 3 [0x47, 0x00] #v[8, 0, 0, 0, 0, 0, 0, 244]))).map (·.trace) =
    some [⟨3, 0x47, some 0, none, #v[8, 0, 0, 0, 0, 0, 0, 244]⟩] := by decide
theorem test_fetch_word : (nextOf (step (State.reset.withFetchWord 24 0x080082))).map (·.regs[0]) =
    some 8 := by decide

/-! ### The loader port and memory -/

theorem test_memory_top : (Memory.write [] 255 0xFF).map (·.read 255) = .ok (.ok 0xFF) := by decide
theorem test_memory_write_zero_unlists : Memory.write [(7, 1)] 7 0x100 = .ok [] := by decide
theorem test_memory_past_top : Memory.write [] 256 0 = .error .addressOutOfRange := by decide
theorem test_load_one_byte : (nextOf (launch false [0x01])).map (·.mem) = some [(0, 1)] := by decide
theorem test_load_too_large : launch true (List.replicate 257 0x01) = .fault .programTooLarge := by
  rw [launch, load, if_pos (by decide : (State.resetWith true).launchPending = true),
    if_pos (by rw [List.length_replicate]; decide)]
theorem test_second_load_refused : load [] { State.resetWith true with programLoaded := true } =
    .refused .loadOutsideLaunch := rfl

/-! ### Witnesses: each statement's hypotheses are met together, each clause at the edge of its range -/

theorem witness_ResetRegistersAndProgramCounter :
    (State.reset = State.reset ∨ ∃ b, State.reset = State.resetWith b) ∧ (0 : Byte).toNat ≤ 7 ∧
      (7 : Byte).toNat ≤ 7 := ⟨.inl rfl, by decide, by decide⟩
theorem witness_ResetRestOfState : (∃ b, State.resetWith false = State.resetWith b) ∧ 255 ≤ 255 :=
  ⟨⟨_, rfl⟩, by decide⟩
theorem witness_MemoryReadsLastWrite : Memory.wf [(0, 1), (255, 2)] ∧ 255 ≤ 255 ∧ 255 < 256 := by decide
theorem witness_MemoryWriteMasksValue : Memory.wf [(0, 1)] ∧ 255 ≤ 255 := by decide
theorem witness_MemoryOperationsKeepCanonicalForm :
    Memory.wf [(0, 1)] ∧ Memory.write [(0, 1)] 255 7 = .ok [(0, 1), (255, 7)] ∧ Memory.wf [(0, 1), (255, 7)] ∧
      ∀ a, Memory.read [(0, 1)] a = Memory.read [(0, 1)] a :=
  ⟨by decide, by decide, by decide, fun _ => rfl⟩
theorem witness_RegisterFileReadWrite : (7 : Byte).toNat ≤ 7 ∧ 7 < (8 : Byte).toNat := by decide
theorem witness_OpcodeHighBitsEqualOperandCount : lookupOpcode 0x47 = some (rowOf .prn) := by decide
theorem witness_AssemblerSpellsInstructions :
    (hexadecimal = decimal ∨ hexadecimal = hexadecimal) ∧ (Instr.ldi 7 255).wellFormed = true ∧
      parseOperands .ldi (tokens [] "R7, 255".toList) = some (.ldi 7 255) ∧
      (Instr.sub 8 255).byteItems ≠ [] := ⟨.inr rfl, by decide, by decide, by decide⟩
theorem witness_StepRunsDecodedInstruction : (coreAt 255 [0x01]).runState = .running ∧
    (coreAt 255 [0x01]).BytesAtPc [0x01] ∧ decode [0x01] = .ok (.hlt, []) := by
  refine ⟨rfl, fun k v h => ?_, rfl⟩
  cases k with
  | zero => cases h; decide
  | succ k => cases h
theorem witness_FetchWordRunsNext : (coreAt 253 []).mem.wf ∧ (coreAt 253 []).pc.toNat ≤ 253 ∧
    decodeTableWord 16 0x0747 = some (.prn 7) := by decide
theorem witness_TerminalStepChangesNothing :
    (coreAt 0 []).halt.runState = .halted ∧
      ∃ k p, ((coreAt 0 []).raise .unknownOpcode).runState = .faulted k p := ⟨rfl, _, _, rfl⟩
theorem witness_UnknownOpcodeFaults : (coreAt 255 [0xFF]).runState = .running ∧
    (coreAt 255 [0xFF]).mem.read (coreAt 255 [0xFF]).pc.toNat = .ok 0xFF ∧
    (0xFF : Byte) ∉ [(0x01 : Byte), 0x47, 0x82, 0xA0, 0xA1] ∧
    (0x47 : Byte) ∈ [(0x01 : Byte), 0x47, 0x82, 0xA0, 0xA1] := by decide
theorem witness_ProgramCounterAdvance :
    (∃ t, step (coreAt 253 [0x82, 0x01, 0x09]) = .next t ∧ t.pc = 256) ∧
    (∃ t, step (coreAt 255 [0x01]) = .next t ∧ t.runState = .halted ∧ t.pc = 256) ∧
    (∃ t, step (coreAt 254 [0x82, 0x01]) = .next t ∧ t.runState = .faulted .addressOutOfRange 254 ∧ t.pc = 254) ∧
    ∃ t, step (coreAt 255 []).halt = .next t ∧ t.runState = .halted ∧ t.pc = 255 :=
  ⟨⟨_, rfl, rfl⟩, ⟨_, rfl, rfl, rfl⟩, ⟨_, rfl, rfl, rfl⟩, _, rfl, rfl, rfl⟩
theorem witness_CompletedCycleCountsAndTraces : (Instr.sub 7 7).wellFormed = true := by decide
theorem witness_HltHalts : (coreAt 256 []).runState = .running ∧ (coreAt 256 []).pc.toNat = 256 := by decide
theorem witness_LdiWritesImmediate : (7 : Byte).toNat ≤ 7 ∧ 7 < (8 : Byte).toNat ∧
    (coreAt 253 []).pc.toNat ≤ 253 ∧ (coreAt 254 [0x82]).runState = .running ∧
    (coreAt 254 [0x82]).mem.read (coreAt 254 [0x82]).pc.toNat = .ok 0x82 ∧ (coreAt 254 [0x82]).pc.toNat = 254 ∧
    (coreAt 255 [0x82]).mem.read (coreAt 255 [0x82]).pc.toNat = .ok 0x82 ∧ (coreAt 255 [0x82]).pc.toNat = 255 := by
  decide
theorem witness_PrnEmitsRegister : (7 : Byte).toNat ≤ 7 ∧ 7 < (8 : Byte).toNat ∧
    (coreAt 254 []).pc.toNat ≤ 254 ∧ (coreAt 255 [0x47]).runState = .running ∧
    (coreAt 255 [0x47]).mem.read (coreAt 255 [0x47]).pc.toNat = .ok 0x47 ∧ (coreAt 255 [0x47]).pc.toNat = 255 := by
  decide
theorem witness_AddWritesSumModulo256 : (7 : Byte).toNat ≤ 7 ∧ 7 < (8 : Byte).toNat ∧
    (coreAt 253 []).pc.toNat ≤ 253 ∧ (coreAt 254 [0xA0]).runState = .running ∧
    (coreAt 254 [0xA0]).mem.read (coreAt 254 [0xA0]).pc.toNat = .ok 0xA0 ∧ (coreAt 254 [0xA0]).pc.toNat = 254 ∧
    (coreAt 255 [0xA0]).mem.read (coreAt 255 [0xA0]).pc.toNat = .ok 0xA0 ∧ (coreAt 255 [0xA0]).pc.toNat = 255 := by
  decide
theorem witness_SubWritesDifferenceModulo256 : (7 : Byte).toNat ≤ 7 ∧ 7 < (8 : Byte).toNat ∧
    (coreAt 253 []).pc.toNat ≤ 253 ∧ (coreAt 254 [0xA1]).runState = .running ∧
    (coreAt 254 [0xA1]).mem.read (coreAt 254 [0xA1]).pc.toNat = .ok 0xA1 ∧ (coreAt 254 [0xA1]).pc.toNat = 254 ∧
    (coreAt 255 [0xA1]).mem.read (coreAt 255 [0xA1]).pc.toNat = .ok 0xA1 ∧ (coreAt 255 [0xA1]).pc.toNat = 255 := by
  decide
theorem witness_AluAppliesToFirstRegister : 7 < (8 : Byte).toNat ∧ (7 : Byte).toNat ≤ 7 := by decide
theorem witness_ArithmeticIsModulo256 : (0 : Byte).toNat ≤ 7 ∧ (7 : Byte).toNat ≤ 7 ∧ (0 : Byte) ≠ 7 := by decide
theorem witness_RegistersAreInterchangeable : ∃ t, exec (.sub 0 7) (coreAt 0 []) = .next t := ⟨_, rfl⟩
theorem witness_RegisterWritersFrame : (∃ t, exec (.ldi 7 255) (coreAt 0 []) = .next t) ∧
    (∃ t, exec (.add 7 0) (coreAt 0 []) = .next t) ∧ (∃ t, exec (.sub 7 7) (coreAt 0 []) = .next t) ∧
    (Instr.sub 7 7).wellFormed = true ∧ (Instr.add 7 8).wellFormed = false ∧
    ∃ t, exec (.add 7 8) (coreAt 0 []) = .next t := ⟨⟨_, rfl⟩, ⟨_, rfl⟩, ⟨_, rfl⟩, rfl, rfl, _, rfl⟩
theorem witness_HltAndPrnFrame : (∃ t, exec .hlt (coreAt 0 []) = .next t) ∧
    (∃ t, exec (.prn 7) (coreAt 0 []) = .next t) ∧ ∃ t, exec (.prn 8) (coreAt 0 []) = .next t :=
  ⟨⟨_, rfl⟩, ⟨_, rfl⟩, _, rfl⟩
theorem witness_RegisterOutOfRangeExactlyOnBadIndex : (coreAt 0 []).runState = .running ∧
    (∃ t, exec (.add 7 8) (coreAt 0 []) = .next t) ∧ ∃ t, exec (.ldi 7 8) (coreAt 0 []) = .next t :=
  ⟨rfl, ⟨_, rfl⟩, _, rfl⟩
theorem witness_AddressOutOfRangeExactCases : (coreAt 254 [0x82]).runState = .running ∧
    (∃ t, step (coreAt 254 [0x82]) = .next t) ∧ (∃ t, step (coreAt 255 [0x47]) = .next t) ∧
    ∃ t, step (coreAt 256 []) = .next t := ⟨rfl, ⟨_, rfl⟩, ⟨_, rfl⟩, _, rfl⟩
theorem witness_FaultsArePrecise : (coreAt 5 []).runState = .running ∧
    step (coreAt 5 []) = .next ((coreAt 5 []).raise .unknownOpcode) ∧
    ((coreAt 5 []).raise .unknownOpcode).runState = .faulted .unknownOpcode 5 := ⟨rfl, rfl, rfl⟩
theorem witness_FirstFailingCheckIsReported :
    (∀ c ∈ [coreAt 256 [], coreAt 255 [0xFF], coreAt 255 [0x47], coreAt 254 [0xA1, 0x09], coreAt 254 [0x47, 0x08],
        coreAt 253 [0xA0, 0x07, 0x08], coreAt 255 [0x01], coreAt 253 [0x82, 0x07, 0x08]],
      c.runState = .running) ∧
    [coreAt 256 [], coreAt 255 [0xFF], coreAt 255 [0x47], coreAt 254 [0xA1, 0x09], coreAt 254 [0x47, 0x08],
        coreAt 253 [0xA0, 0x07, 0x08], coreAt 255 [0x01], coreAt 253 [0x82, 0x07, 0x08]].map
          (fun c => (nextOf (step c)).map (·.runState)) =
      [some (.faulted .addressOutOfRange 256), some (.faulted .unknownOpcode 255),
        some (.faulted .addressOutOfRange 255), some (.faulted .addressOutOfRange 254),
        some (.faulted .registerOutOfRange 254), some (.faulted .registerOutOfRange 253), some .halted,
        some .running] := by decide
theorem witness_OnlyHltHaltsAndOnlyFaultsFault : (∃ t, step (coreAt 255 [0x01]) = .next t) ∧
    step (coreAt 5 []) = .next ((coreAt 5 []).raise .unknownOpcode) := ⟨⟨_, rfl⟩, rfl⟩
theorem witness_OnlyPrnEmits : ∃ t, step (coreAt 254 [0x47, 0x07]) = .next t ∧ t.out = [244] := ⟨_, rfl, rfl⟩
theorem witness_LaunchPlacesProgram : ([0x01] : List Byte).length ≤ 256 ∧
    256 < (List.replicate 257 (0x01 : Byte)).length := ⟨by decide, by rw [List.length_replicate]; decide⟩
theorem witness_LoaderWritesWholeProgramOrNothing : State.reset.launchPending = true ∧ State.reset.mem.wf ∧
    ([0x01] : List Byte).length ≤ 256 ∧ 256 < (List.replicate 257 (0x01 : Byte)).length :=
  ⟨by decide, by decide, by decide, by rw [List.length_replicate]; decide⟩
theorem witness_LoaderRefusesOutsideLaunch : ([0x01] : List Byte).length ≤ 256 ∧
    (∃ t, load [0x01] State.reset = .next t) ∧ State.reset.runState = .running ∧
    ∃ t, step State.reset = .next t := ⟨by decide, ⟨_, rfl⟩, rfl, _, rfl⟩

/-- A state right after reset meets the invariant (TRACE_ENABLED set, so that every clause computes). -/
theorem witness_inv : (State.resetWith true).Inv where
  memCanonical := by decide
  pcInRange := by decide
  flagsZero := rfl
  intMaskZero := rfl
  intStatusZero := rfl
  faultRecord := nofun
  haltedAfterHlt := nofun
  cyclesBound := by decide
  outBound := by decide
  traceLength := rfl

theorem witness_LoadKeepsInv : (State.resetWith true).Inv ∧
    ∃ t, load [0x82, 0x00, 0x08] (State.resetWith true) = .next t := ⟨witness_inv, _, rfl⟩
theorem witness_StepKeepsInv : (State.resetWith true).Inv ∧
    ∃ t, step (State.resetWith true) = .next t := ⟨witness_inv, _, rfl⟩
theorem witness_RunLeavesMemoryAndReservedRegisters :
    ∃ t, Sys2Proof.core.run 1 (coreAt 0 [0xA0, 0x00, 0x01]) = .next t := ⟨_, rfl⟩
theorem witness_RunAgainReturnsSameOutcome : ∃ t, run (coreAt 0 [0x01]) = .next t := ⟨_, rfl⟩
theorem witness_LaunchedRunCompletesAtMost128Cycles : ∃ s t, launch true [0x01] = .next s ∧
    Sys2Proof.core.run 1 s = .next t := ⟨_, _, rfl, rfl⟩
theorem witness_RunIgnoresObservationsAndReservedRegisters :
    ∃ s s' t : State, s ≠ s' ∧ s.regs = s'.regs ∧ s.pc = s'.pc ∧ s.mem = s'.mem ∧ s.runState = s'.runState ∧
      Sys2Proof.core.run 1 s = .next t :=
  ⟨State.resetWith true, State.resetWith false, _, by decide, rfl, rfl, rfl, rfl, rfl⟩

end Sys2Proof.Tests
end

/-! ## The family 10_state: registers, pc, run state and the invariant -/

section

namespace Sys2Proof

/-! ### Facts about single instructions -/

theorem Instr.opcode_eq_one {i : Instr} : i.opcode = 0x01 ↔ i = .hlt := by
  cases i <;> simp [Instr.opcode, Instr.mnemonic, rowOf]

theorem Instr.operandCount_pos {i : Instr} (h : i ≠ .hlt) : 0 < i.operandCount := by
  cases i <;> simp_all [Instr.operandCount, Instr.mnemonic, rowOf]

namespace Machine

/-! ### What the execute step changes and what it leaves, field by field -/

section Executed

variable {s s' : State} {i : Instr}

theorem Executed.pc_eq (h : Executed s s' i) : s'.pc = s.pc := by rw [h.frame]

theorem Executed.flags_eq (h : Executed s s' i) : s'.flags = s.flags := by rw [h.frame]

theorem Executed.intMask_eq (h : Executed s s' i) : s'.intMask = s.intMask := by rw [h.frame]

theorem Executed.intStatus_eq (h : Executed s s' i) : s'.intStatus = s.intStatus := by rw [h.frame]

theorem Executed.mem_eq (h : Executed s s' i) : s'.mem = s.mem := by rw [h.frame]

theorem Executed.trace_eq (h : Executed s s' i) : s'.trace = s.trace := by rw [h.frame]

theorem Executed.cycles_eq (h : Executed s s' i) : s'.cycles = s.cycles := by rw [h.frame]

theorem Executed.traceEnabled_eq (h : Executed s s' i) : s'.traceEnabled = s.traceEnabled := by rw [h.frame]

/-- Only HLT's execute step touches the run state (10_state.md R23). -/
theorem Executed.runState_eq (h : Executed s s' i) :
    s'.runState = if i = .hlt then .halted else s.runState := by
  cases i with
  | hlt => cases h; rfl
  | ldi a imm => obtain ⟨_, rfl⟩ := h; rfl
  | prn a => obtain ⟨_, rfl⟩ := h; rfl
  | add a b => obtain ⟨_, _, rfl⟩ := h; rfl
  | sub a b => obtain ⟨_, _, rfl⟩ := h; rfl

theorem Executed.halted_iff (h : Executed s s' i) (hr : s.runState = .running) :
    s'.runState = .halted ↔ i = .hlt := by
  rw [h.runState_eq, hr]
  split <;> simp [*]

theorem Executed.not_faulted (h : Executed s s' i) (hr : s.runState = .running) (k : ErrorKind) (p : PcWord) :
    s'.runState ≠ .faulted k p := by
  rw [h.runState_eq, hr]
  split <;> simp

/-- One instruction emits at most one value (60_exceptions.md R134). -/
theorem Executed.out_length_le (h : Executed s s' i) : s'.out.length ≤ s.out.length + 1 := by
  cases i with
  | hlt => cases h; simp
  | ldi a imm => obtain ⟨_, rfl⟩ := h; simp
  | prn a => obtain ⟨_, rfl⟩ := h; simp
  | add a b => obtain ⟨_, _, rfl⟩ := h; simp
  | sub a b => obtain ⟨_, _, rfl⟩ := h; simp

end Executed

/-! ### The opcode byte of a fetched instruction -/

theorem read_pc_of_fetch {s : State} {i : Instr} (h : fetch s = .ok i) :
    s.mem.read s.pc.toNat = .ok i.opcode := by
  obtain ⟨hp, hop, -⟩ := fetch_eq_ok.1 h
  exact Memory.read_eq_ok.2 ⟨by omega, hop⟩

theorem fetch_eq_hlt {s : State} : fetch s = .ok .hlt ↔ s.mem.read s.pc.toNat = .ok 0x01 := by
  constructor
  · exact read_pc_of_fetch
  · intro h
    obtain ⟨hp, hop⟩ := Memory.read_eq_ok.1 h
    exact fetch_eq_ok.2 ⟨hp, hop, nofun, nofun⟩

/-! ### Inversion of a step -/

/-- `step_cases` for a step whose next state is given. -/
theorem step_next_cases {s t : State} (h : step s = .next t) :
    (s.runState ≠ .running ∧ t = s) ∨
      (s.runState = .running ∧ ∃ k, k.raisedByCycle ∧ t = s.raise k) ∨
      (s.runState = .running ∧ ∃ i s', fetch s = .ok i ∧ Executed s s' i ∧ t = s'.completeCycle i) := by
  obtain ⟨hr, hs⟩ | ⟨hr, k, hk, hs⟩ | ⟨hr, i, s', hf, -, he, hs⟩ := step_cases s
  · exact .inl ⟨hr, Host.Outcome.next.inj (h.symm.trans hs)⟩
  · exact .inr (.inl ⟨hr, k, hk, Host.Outcome.next.inj (h.symm.trans hs)⟩)
  · exact .inr (.inr ⟨hr, i, s', hf, he, Host.Outcome.next.inj (h.symm.trans hs)⟩)

theorem step_of_hlt_at_pc {s : State} (hr : s.runState = .running) (h : s.mem.read s.pc.toNat = .ok 0x01) :
    step s = .next (s.halt.completeCycle .hlt) :=
  step_of_fetch_ok hr (fetch_eq_hlt.2 h)

/-! ### The invariant (O41) -/

/-- Entering a fault keeps the invariant: only the run state changes, and it records the pc (60_exceptions.md R126,
R127). -/
theorem State.Inv.raise {s : State} (h : s.Inv) (hr : s.runState = .running) {k : ErrorKind}
    (hk : k.raisedByCycle) : (s.raise k).Inv where
  memCanonical := h.memCanonical
  pcInRange := h.pcInRange
  flagsZero := h.flagsZero
  intMaskZero := h.intMaskZero
  intStatusZero := h.intStatusZero
  faultRecord := by
    rintro k' p hkp
    obtain ⟨rfl, rfl⟩ := RunState.faulted.inj hkp
    exact ⟨hk, rfl⟩
  haltedAfterHlt := nofun
  cyclesBound := by simpa [hr] using h.cyclesBound
  outBound := h.outBound
  traceLength := h.traceLength

/-- A completed cycle moves pc by at least 2, counting a halt as 1 (30_encoding.md R53, R60). -/
theorem two_le_cycle_advance {s s' : State} {i : Instr} (hr : s.runState = .running) (he : Executed s s' i) :
    2 ≤ 1 + i.operandCount + (if s'.runState = .halted then 1 else 0) := by
  by_cases hi : i = .hlt
  · rw [if_pos ((he.halted_iff hr).2 hi)]
    omega
  · have hpos := Instr.operandCount_pos hi
    omega

/-- Completing the cycle of a fetched instruction keeps the invariant. -/
theorem State.Inv.completeCycle {s s' : State} {i : Instr} (h : s.Inv) (hr : s.runState = .running)
    (hf : fetch s = .ok i) (he : Executed s s' i) : (s'.completeCycle i).Inv where
  memCanonical := by simpa [he.mem_eq] using h.memCanonical
  pcInRange := by
    obtain ⟨hp, -⟩ := fetch_eq_ok.1 hf
    rw [completeCycle_pc_toNat hf he]
    omega
  flagsZero := he.flags_eq.trans h.flagsZero
  intMaskZero := he.intMask_eq.trans h.intMaskZero
  intStatusZero := he.intStatus_eq.trans h.intStatusZero
  faultRecord k p hkp := absurd hkp (he.not_faulted hr k p)
  haltedAfterHlt hh := by
    obtain rfl : i = .hlt := (he.halted_iff hr).1 hh
    have hpc : (s'.completeCycle .hlt).pc.toNat = s.pc.toNat + 1 := completeCycle_pc_toNat hf he
    rw [hpc, State.completeCycle_mem, he.mem_eq]
    exact ⟨by omega, fetch_eq_hlt.1 hf⟩
  cyclesBound := by
    have hc : 2 * s.cycles ≤ s.pc.toNat := by simpa [hr] using h.cyclesBound
    have ha := two_le_cycle_advance hr he
    rw [completeCycle_pc_toNat hf he, State.completeCycle_cycles, State.completeCycle_runState, he.cycles_eq]
    omega
  outBound := by
    have ho := he.out_length_le
    have hb := h.outBound
    rw [State.completeCycle_out, State.completeCycle_cycles, he.cycles_eq]
    omega
  traceLength := by
    have ht := h.traceLength
    rw [State.completeCycle_trace, State.completeCycle_traceEnabled, State.completeCycle_cycles, he.trace_eq,
      he.traceEnabled_eq, he.cycles_eq]
    split_ifs at ht ⊢
    · rw [List.length_append, ht, List.length_singleton]
    · exact ht

/-- Settles O41, by what a step can do: stay, raise a fault, or complete a cycle. -/
theorem stepKeepsInv : Obligations.StepKeepsInv := by
  intro s t hs h
  obtain ⟨-, rfl⟩ | ⟨hr, k, hk, rfl⟩ | ⟨hr, i, s', hf, he, rfl⟩ := step_next_cases h
  · exact hs
  · exact hs.raise hr hk
  · exact hs.completeCycle hr hf he

/-! ### The program counter (O17) and the run state (O33) -/

/-- Settles O17: of what a step can do, only a completed cycle moves pc. -/
theorem programCounterAdvance : Obligations.ProgramCounterAdvance := by
  intro s t h
  obtain ⟨hr, rfl⟩ | ⟨hr, k, -, rfl⟩ | ⟨hr, i, s', hf, he, rfl⟩ := step_next_cases h
  · exact .inr ⟨.inl hr, rfl⟩
  · exact .inr ⟨.inr ⟨k, s.pc, rfl⟩, rfl⟩
  · exact .inl ⟨hr, he.not_faulted hr, i.opcode, rowOf i.mnemonic, read_pc_of_fetch hf,
      lookupOpcode_rowOf i.mnemonic, completeCycle_pc_toNat hf he⟩

theorem halted_of_step {s t : State} (h : step s = .next t) (ht : t.runState = .halted) :
    s.runState = .halted ∨ (s.runState = .running ∧ s.mem.read s.pc.toNat = .ok 0x01) := by
  obtain ⟨-, rfl⟩ | ⟨-, k, -, rfl⟩ | ⟨hr, i, s', hf, he, rfl⟩ := step_next_cases h
  · exact .inl ht
  · cases ht
  · obtain rfl : i = .hlt := (he.halted_iff hr).1 ht
    exact .inr ⟨hr, fetch_eq_hlt.1 hf⟩

theorem step_halted {s t : State} (h : step s = .next t)
    (hs : s.runState = .halted ∨ (s.runState = .running ∧ s.mem.read s.pc.toNat = .ok 0x01)) :
    t.runState = .halted := by
  obtain hs | ⟨hr, hop⟩ := hs
  · obtain rfl := Host.Outcome.next.inj ((step_of_terminal (by simp [hs])).symm.trans h)
    exact hs
  · obtain rfl := Host.Outcome.next.inj ((step_of_hlt_at_pc hr hop).symm.trans h)
    rfl

theorem faulted_of_step {s t : State} (h : step s = .next t) (ht : ∃ k p, t.runState = .faulted k p) :
    (∃ k p, s.runState = .faulted k p) ∨ (s.runState = .running ∧ t = { s with runState := t.runState }) := by
  obtain ⟨-, rfl⟩ | ⟨hr, k, -, rfl⟩ | ⟨hr, i, s', -, he, rfl⟩ := step_next_cases h
  · exact .inl ht
  · exact .inr ⟨hr, rfl⟩
  · obtain ⟨k, p, hkp⟩ := ht
    exact absurd hkp (he.not_faulted hr k p)

/-- Settles O33, by the three readings of a step above. -/
theorem onlyHltHaltsAndOnlyFaultsFault : Obligations.OnlyHltHaltsAndOnlyFaultsFault :=
  fun _ _ h => ⟨⟨halted_of_step h, step_halted h⟩, faulted_of_step h⟩

/-! ### Reset (O1) and the register file (O6) -/

theorem resetWith_regs :
    ∀ (b : Bool) (j : Fin 8), (State.resetWith b).regs[j.val] = if j.val = 7 then 0xF4 else 0 := by
  decide

theorem readReg_resetWith (b : Bool) {i : Byte} (h : i.toNat ≤ 7) :
    readReg (State.resetWith b) i = .ok (if i.toNat = 7 then 0xF4 else 0) := by
  rw [readReg_of_lt (by omega), resetWith_regs b ⟨i.toNat, by omega⟩]

/-- Settles O1: `State.reset` is `State.resetWith` of the open parameter. -/
theorem resetRegistersAndProgramCounter : Obligations.ResetRegistersAndProgramCounter := by
  rintro s (rfl | ⟨b, rfl⟩)
  · exact ⟨fun _ h => readReg_resetWith _ h, rfl, rfl⟩
  · exact ⟨fun _ h => readReg_resetWith b h, rfl, rfl⟩

theorem toNat_ofInt_byte (v : Int) : ((BitVec.ofInt 8 v).toNat : Int) = v % 256 := by
  rw [BitVec.toNat_ofInt]
  omega

/-- Settles O6, by reading back what `writeReg` set; equal indices are equal bytes, since none is masked. -/
theorem registerFileReadWrite : Obligations.RegisterFileReadWrite := by
  intro s i v
  constructor
  · intro hi
    refine ⟨_, BitVec.ofInt 8 v, writeReg_of_lt (by omega) v, ?_, toNat_ofInt_byte v, fun j hj => ?_, rfl⟩
    · rw [readReg_setReg, if_pos rfl]
    · rw [readReg_setReg, if_neg fun h => hj (BitVec.eq_of_toNat_eq h)]
  · exact fun hi => ⟨readReg_of_ge hi, writeReg_of_ge hi v⟩

end Machine

end Sys2Proof

end

section

namespace Sys2Proof.Machine

/-! ### Memory (O3) -/

/-- An address below 256 reads as the value last written to it, and every other address, outside memory too, reads
as before. -/
theorem Memory.read_set {m : Memory} (h : m.wf) {a : Nat} (ha : a < 256) (v : Byte) (b : Nat) :
    (m.set a v).read b = if b = a then .ok v else m.read b := by
  by_cases hb : b < 256
  · rw [Memory.read_of_lt hb, Memory.read_of_lt hb, Memory.get_set h]
    split_ifs <;> rfl
  · rw [Memory.read_of_ge (Nat.not_lt.1 hb), Memory.read_of_ge (Nat.not_lt.1 hb), if_neg (by omega)]

/-- Settles O3, by what reads after a write of one cell return; at reset no cell is listed. -/
theorem memoryReadsLastWrite : Obligations.MemoryReadsLastWrite := by
  refine ⟨fun a ha => Memory.read_of_lt (by omega), fun m hm => ⟨fun a v ha _ => ?_, fun a v ha => ?_⟩⟩
  · have ha' : a < 256 := by omega
    refine ⟨_, Memory.write_of_lt ha' v, ?_, fun b hb => ?_⟩
    · rw [Memory.read_set hm ha', if_pos rfl]
    · rw [Memory.read_set hm ha', if_neg hb]
  · exact ⟨Memory.read_of_ge ha, Memory.write_of_ge ha v⟩

end Sys2Proof.Machine

end

/-! ## The family 30_encoding: the decode table, the unknown opcodes and the assembler -/

section

namespace Sys2Proof

/-! ### The rows of the decode table (O7) -/

theorem mem_decodeTable {row : DecodeRow} : row ∈ decodeTable ↔ ∃ m, row = rowOf m := by
  constructor
  · intro h
    simp only [decodeTable, List.mem_cons, List.not_mem_nil, or_false] at h
    obtain h | h | h | h | h := h <;> exact ⟨_, h⟩
  · rintro ⟨m, rfl⟩
    exact rowOf_mem_decodeTable m

/-- An opcode byte looks up exactly the row of the table that it keys. -/
theorem lookupOpcode_eq_some_iff_mem {op : Byte} {row : DecodeRow} :
    lookupOpcode op = some row ↔ row.opcode = op ∧ row ∈ decodeTable := by
  rw [lookupOpcode_eq_some, mem_decodeTable]
  constructor
  · rintro ⟨m, rfl, rfl⟩
    exact ⟨rfl, m, rfl⟩
  · rintro ⟨rfl, m, rfl⟩
    exact ⟨m, rfl, rfl⟩

/-- Settles O7: the five rows written out are the model's table. -/
theorem decodeTableHasExactlyFiveRows : Obligations.DecodeTableHasExactlyFiveRows :=
  ⟨fun _ _ => lookupOpcode_eq_some_iff_mem,
    fun i => ⟨i.opcode, rowOf i.mnemonic, rfl, lookupOpcode_rowOf _, rowOf_mnemonic _, encode_length i⟩⟩

/-! ### Opcode bytes without a row (O16) -/

/-- The five opcode bytes of the spec, in rising order, are those of the mnemonics. -/
theorem mem_opcodes {op : Byte} :
    op ∈ [(0x01 : Byte), 0x47, 0x82, 0xA0, 0xA1] ↔ ∃ m, op = (rowOf m).opcode := by
  constructor
  · intro h
    simp only [List.mem_cons, List.not_mem_nil, or_false] at h
    obtain h | h | h | h | h := h
    · exact ⟨.hlt, h⟩
    · exact ⟨.prn, h⟩
    · exact ⟨.ldi, h⟩
    · exact ⟨.add, h⟩
    · exact ⟨.sub, h⟩
  · rintro ⟨m, rfl⟩
    cases m <;> decide

theorem lookupOpcode_eq_none_of_not_mem {op : Byte} (h : op ∉ [(0x01 : Byte), 0x47, 0x82, 0xA0, 0xA1]) :
    lookupOpcode op = none := by
  rw [Option.eq_none_iff_forall_ne_some]
  intro row hrow
  obtain ⟨m, -, hop⟩ := lookupOpcode_eq_some.1 hrow
  exact h (mem_opcodes.2 ⟨m, hop⟩)

/-- An opcode of the table followed by two bytes decodes, whatever the bytes are (30_encoding.md R56). -/
theorem decode_opcode (m : Mnemonic) (a b : Byte) (rest : List Byte) :
    ∃ rest', decode ((rowOf m).opcode :: a :: b :: rest) = .ok (m.instr a b, rest') := by
  cases m <;> exact ⟨_, rfl⟩

namespace Machine

/-- A byte at pc without a row fails the fetch, before any operand is read (30_encoding.md R55). -/
theorem fetch_of_unknown {s : State} {op : Byte} (hop : s.mem.read s.pc.toNat = .ok op)
    (hrow : lookupOpcode op = none) : fetch s = .error .unknownOpcode := by
  obtain ⟨hp, rfl⟩ := Memory.read_eq_ok.1 hop
  rw [fetch_spec, if_neg (by omega), hrow]

/-- Settles O16: a byte that is none of the five has no row, and each of the five is some mnemonic's opcode. -/
theorem unknownOpcodeFaults : Obligations.UnknownOpcodeFaults := by
  constructor
  · intro s op hr hop hnot
    exact step_of_fetch_error hr (fetch_of_unknown hop (lookupOpcode_eq_none_of_not_mem hnot))
  · intro op a b rest h
    obtain ⟨m, rfl⟩ := mem_opcodes.1 h
    exact ⟨m.instr a b, decode_opcode m a b rest⟩

end Machine

/-! ### Digits and numerals -/

theorem digitChar_mem (n : Nat) : digitChar n ∈ digitChars := by
  rw [digitChar, List.getD_eq_getElem?_getD]
  cases h : digitChars[n]? with
  | none => decide
  | some c => exact List.mem_of_getElem? h

theorem digitValue_digitChar : ∀ base ≤ 16, ∀ d < base, digitValue base (digitChar d) = some d := by
  decide

theorem digitValue_lt {base : Nat} {c : Char} {v : Nat} (h : digitValue base c = some v) : v < base := by
  rw [digitValue, List.idxOf?_eq_some_iff] at h
  obtain ⟨hv, -⟩ := h
  exact lt_of_lt_of_le hv (List.length_take_le ..)

/-- Reading one more digit. -/
theorem digitsValue_digitChar {base d : Nat} (hb : base ≤ 16) (hd : d < base) (v : Nat) (cs : List Char) :
    digitsValue base v (digitChar d :: cs) = digitsValue base (base * v + d) cs := by
  rw [digitsValue, digitValue_digitChar base hb d hd]

theorem digitsValue_decimal (b : Byte) : digitsValue 10 0 (decimal b) = some b.toNat := by
  have hb := b.isLt
  unfold decimal
  split_ifs with h10 h100
  · rw [digitsValue_digitChar (by omega) h10, digitsValue]
    simp
  · rw [digitsValue_digitChar (by omega) (by omega), digitsValue_digitChar (by omega) (by omega), digitsValue]
    congr 1
    omega
  · rw [digitsValue_digitChar (by omega) (by omega), digitsValue_digitChar (by omega) (by omega),
      digitsValue_digitChar (by omega) (by omega), digitsValue]
    congr 1
    omega

theorem numeralOf_of_digitsValue {base : Nat} {cs : List Char} {b : Byte} (hne : cs ≠ [])
    (h : digitsValue base 0 cs = some b.toNat) : numeralOf base cs = some b := by
  simp [numeralOf, hne, h, b.isLt]

/-- Only a numeral with an `x` in it is hexadecimal. -/
theorem parseNumeral_of_no_x {cs : List Char} (h : 'x' ∉ cs) : parseNumeral cs = numeralOf 10 cs := by
  unfold parseNumeral
  split
  · simp at h
  · rfl

theorem decimal_ne_nil (b : Byte) : decimal b ≠ [] := by
  unfold decimal
  split_ifs <;> simp

theorem mem_digitChars_of_mem_decimal {b : Byte} {c : Char} (h : c ∈ decimal b) : c ∈ digitChars := by
  unfold decimal at h
  split_ifs at h <;> simp only [List.mem_cons, List.not_mem_nil, or_false] at h
  · exact h ▸ digitChar_mem _
  · obtain rfl | rfl := h <;> exact digitChar_mem _
  · obtain rfl | rfl | rfl := h <;> exact digitChar_mem _

theorem parseNumeral_decimal (b : Byte) : parseNumeral (decimal b) = some b := by
  have hx : 'x' ∉ decimal b := fun h => absurd (mem_digitChars_of_mem_decimal h) (by decide)
  rw [parseNumeral_of_no_x hx]
  exact numeralOf_of_digitsValue (decimal_ne_nil b) (digitsValue_decimal b)

theorem parseNumeral_hexadecimal (b : Byte) : parseNumeral (hexadecimal b) = some b := by
  have hb := b.isLt
  refine numeralOf_of_digitsValue (List.cons_ne_nil _ _) ?_
  rw [digitsValue_digitChar (by omega) (by omega), digitsValue_digitChar (by omega) (by omega), digitsValue]
  congr 1
  omega

theorem parseRegister_registerName {a : Byte} (h : a.toNat < 8) : parseRegister (registerName a) = some a := by
  have hd : digitValue 8 (digitChar a.toNat) = some a.toNat := digitValue_digitChar 8 (by omega) _ h
  simp [registerName, decimal, show a.toNat < 10 by omega, parseRegister, hd]

/-- No name of a register stands for a byte of 8 or more. -/
theorem parseRegister_lt {cs : List Char} {a : Byte} (h : parseRegister cs = some a) : a.toNat < 8 := by
  unfold parseRegister at h
  split at h
  · split at h
    · cases h
    · rename_i v hv
      have hlt := digitValue_lt hv
      cases h
      rw [BitVec.toNat_ofNat]
      omega
  · cases h

/-! ### Mnemonics and items -/

theorem parseMnemonic_spelling (m : Mnemonic) : parseMnemonic m.spelling = some m := by
  cases m <;> decide

theorem spelling_of_parseMnemonic {cs : List Char} {m : Mnemonic} (h : parseMnemonic cs = some m) :
    cs = m.spelling := by
  have hm := List.find?_some h
  exact (beq_iff_eq.1 hm).symm

theorem parseNumeral_spelling (m : Mnemonic) : parseNumeral m.spelling = none := by
  cases m <;> decide

/-- A numeral spells no mnemonic. -/
theorem parseMnemonic_of_numeral {cs : List Char} {b : Byte} (h : parseNumeral cs = some b) :
    parseMnemonic cs = none := by
  rw [Option.eq_none_iff_forall_ne_some]
  intro m hm
  rw [spelling_of_parseMnemonic hm, parseNumeral_spelling] at h
  cases h

theorem parseItem_of_numeral {cs : List Char} {b : Byte} (h : parseNumeral cs = some b) :
    parseItem cs = some b := by
  rw [parseItem, parseMnemonic_of_numeral h]
  exact h

theorem parseItem_spellItem (x : ByteItem) : parseItem (spellItem x) = some (itemByte x) := by
  cases x with
  | mnemonic m => rw [parseItem, spellItem, parseMnemonic_spelling]; rfl
  | decimal b => exact parseItem_of_numeral (parseNumeral_decimal b)
  | hexadecimal b => exact parseItem_of_numeral (parseNumeral_hexadecimal b)

/-! ### Words -/

/-- What the tokens of a line read as one word: it is not empty and holds no separator. -/
structure IsWord (w : List Char) : Prop where
  ne_nil : w ≠ []
  noSeparator : ∀ c ∈ w, isSeparator c = false

theorem isSeparator_of_mem_digitChars : ∀ c ∈ digitChars, isSeparator c = false := by
  simp [digitChars, isSeparator]

theorem isSeparator_digitChar (n : Nat) : isSeparator (digitChar n) = false :=
  isSeparator_of_mem_digitChars _ (digitChar_mem n)

theorem isWord_spelling (m : Mnemonic) : IsWord m.spelling := by
  cases m <;> exact ⟨by simp [Mnemonic.spelling], by simp [Mnemonic.spelling, isSeparator]⟩

theorem isWord_decimal (b : Byte) : IsWord (decimal b) :=
  ⟨decimal_ne_nil b, fun _ h => isSeparator_of_mem_digitChars _ (mem_digitChars_of_mem_decimal h)⟩

theorem isWord_hexadecimal (b : Byte) : IsWord (hexadecimal b) where
  ne_nil := List.cons_ne_nil _ _
  noSeparator := by
    have h0 : isSeparator '0' = false := rfl
    have hx : isSeparator 'x' = false := rfl
    simp [hexadecimal, h0, hx, isSeparator_digitChar]

theorem isWord_registerName (a : Byte) : IsWord (registerName a) where
  ne_nil := List.cons_ne_nil _ _
  noSeparator := List.forall_mem_cons.2 ⟨rfl, (isWord_decimal a).noSeparator⟩

theorem isWord_spellItem (x : ByteItem) : IsWord (spellItem x) := by
  cases x with
  | mnemonic m => exact isWord_spelling m
  | decimal b => exact isWord_decimal b
  | hexadecimal b => exact isWord_hexadecimal b

/-- A word before a space. -/
theorem tokens_word_space {w : List Char} (hw : IsWord w) (rest : List Char) :
    tokens [] (w ++ ' ' :: rest) = .word w :: tokens [] rest := by
  rw [tokens_append_word hw.noSeparator, tokens, if_pos rfl, endWord_reverse hw.ne_nil]

/-! ### The byte-list form -/

/-- The items of a list are read one by one up to the closing bracket. -/
theorem parseItems_spellItems (x : ByteItem) (xs : List ByteItem) :
    parseItems (tokens [] (spellItems (x :: xs))) = some ((x :: xs).map itemByte) := by
  induction xs generalizing x with
  | nil =>
    have hx := isWord_spellItem x
    rw [spellItems, tokens_word_closeBracket hx.ne_nil hx.noSeparator, parseItems, parseItem_spellItem]
    rfl
  | cons y ys ih =>
    have hx := isWord_spellItem x
    rw [spellItems, tokens_word_comma hx.ne_nil hx.noSeparator, parseItems, parseItem_spellItem, ih]
    · rfl
    · simp

theorem tokens_openBracket (rest : List Char) : tokens [] ('[' :: rest) = .openBracket :: tokens [] rest := by
  rw [tokens, if_neg (by decide), if_neg (by decide), if_pos rfl]
  rfl

theorem assembleLine_spellByteList {items : List ByteItem} (h : items ≠ []) :
    assembleLine (spellByteList items) = some (items.map itemByte) := by
  obtain ⟨x, xs, rfl⟩ := List.exists_cons_of_ne_nil h
  rw [assembleLine, spellByteList, tokens_openBracket]
  exact parseItems_spellItems x xs

/-- The items of an instruction stand for its encoding. -/
theorem map_itemByte_byteItems (i : Instr) : i.byteItems.map itemByte = encode i := by
  simp [Instr.byteItems, encode, Instr.opcode, itemByte, Function.comp_def]

/-! ### The line of an instruction -/

/-- A line that begins with a mnemonic assembles as its operands do. -/
theorem assembleLine_of_tokens {line : List Char} {m : Mnemonic} {ts : List Token} {i : Instr}
    (hline : tokens [] line = .word m.spelling :: ts) (hi : parseOperands m ts = some i) :
    assembleLine line = some (encode i) := by
  rw [assembleLine, hline]
  simp [parseMnemonic_spelling, hi]

theorem tokens_two_operands (m : Mnemonic) {v w : List Char} (hv : IsWord v) (hw : IsWord w) :
    tokens [] (m.spelling ++ (' ' :: v ++ [',', ' '] ++ w)) = [.word m.spelling, .word v, .comma, .word w] := by
  have h : m.spelling ++ (' ' :: v ++ [',', ' '] ++ w) = m.spelling ++ ' ' :: (v ++ ',' :: ' ' :: w) := by simp
  rw [h, tokens_word_space (isWord_spelling m), tokens_word_comma hv.ne_nil hv.noSeparator,
    tokens_word hw.ne_nil hw.noSeparator]

/-- A well-formed instruction is spelt with any form of numeral that is a word and is read back. -/
theorem assembleLine_spell {numeral : Byte → List Char} (hword : ∀ b, IsWord (numeral b))
    (hparse : ∀ b, parseNumeral (numeral b) = some b) {i : Instr} (hi : i.wellFormed = true) :
    assembleLine (i.spell numeral) = some (encode i) := by
  cases i with
  | hlt => rfl
  | ldi a imm =>
    have ha : a.toNat < 8 := by simpa using hi
    refine assembleLine_of_tokens (tokens_two_operands .ldi (isWord_registerName a) (hword imm)) ?_
    simp [parseOperands, parseRegister_registerName ha, hparse]
  | prn a =>
    have ha : a.toNat < 8 := by simpa using hi
    have hname := isWord_registerName a
    refine assembleLine_of_tokens (m := .prn) (ts := [.word (registerName a)]) ?_ ?_
    · exact (tokens_word_space (isWord_spelling .prn) _).trans (by rw [tokens_word hname.ne_nil hname.noSeparator])
    · simp [parseOperands, parseRegister_registerName ha]
  | add a b | sub a b =>
    obtain ⟨ha, hb⟩ : a.toNat < 8 ∧ b.toNat < 8 := by simpa using hi
    refine assembleLine_of_tokens (tokens_two_operands _ (isWord_registerName a) (isWord_registerName b)) ?_
    simp [Instr.mnemonic, parseOperands, parseRegister_registerName, ha, hb]

/-- The operands of a line make an instruction of its mnemonic that names registers 0 to 7 only. -/
theorem parseOperands_wellFormed {m : Mnemonic} {ts : List Token} {i : Instr} (h : parseOperands m ts = some i) :
    i.mnemonic = m ∧ i.wellFormed = true := by
  unfold parseOperands at h
  split at h
  · cases h
    exact ⟨rfl, rfl⟩
  · obtain ⟨a, ha, h⟩ := Option.bind_eq_some_iff.1 h
    obtain ⟨imm, -, h⟩ := Option.bind_eq_some_iff.1 h
    cases h
    exact ⟨rfl, Machine.wellFormed_ldi.2 (parseRegister_lt ha)⟩
  · obtain ⟨a, ha, h⟩ := Option.bind_eq_some_iff.1 h
    cases h
    exact ⟨rfl, Machine.wellFormed_prn.2 (parseRegister_lt ha)⟩
  · obtain ⟨a, ha, h⟩ := Option.bind_eq_some_iff.1 h
    obtain ⟨b, hb, h⟩ := Option.bind_eq_some_iff.1 h
    cases h
    exact ⟨rfl, Machine.wellFormed_add.2 ⟨parseRegister_lt ha, parseRegister_lt hb⟩⟩
  · obtain ⟨a, ha, h⟩ := Option.bind_eq_some_iff.1 h
    obtain ⟨b, hb, h⟩ := Option.bind_eq_some_iff.1 h
    cases h
    exact ⟨rfl, Machine.wellFormed_sub.2 ⟨parseRegister_lt ha, parseRegister_lt hb⟩⟩
  · cases h

/-- Settles O12, form by form. -/
theorem assemblerSpellsInstructions : Obligations.AssemblerSpellsInstructions := by
  refine ⟨?_, fun _ _ _ => parseOperands_wellFormed, fun _ => assembleLine_spellByteList, fun i => ?_⟩
  · rintro numeral i (rfl | rfl) hi
    · exact assembleLine_spell isWord_decimal parseNumeral_decimal hi
    · exact assembleLine_spell isWord_hexadecimal parseNumeral_hexadecimal hi
  · have h := assembleLine_spellByteList (items := i.byteItems) (List.cons_ne_nil _ _)
    rwa [map_itemByte_byteItems] at h

end Sys2Proof

end

/-! ## The family 40_control: HLT -/

section

namespace Sys2Proof

theorem Instr.operandCount_hlt : Instr.hlt.operandCount = 0 := rfl

/-- No byte after HLT's opcode is an operand. -/
theorem decode_hlt (rest : List Byte) : decode (0x01 :: rest) = .ok (.hlt, rest) := rfl

namespace Machine

theorem exec_hlt (s : State) : exec .hlt s = .next (s.halt.completeCycle .hlt) := rfl

/-- Past memory the opcode read already fails, before any decode (60_exceptions.md R121). -/
theorem fetch_of_pc_ge {s : State} (h : 256 ≤ s.pc.toNat) : fetch s = .error .addressOutOfRange := by
  rw [fetch_spec, if_pos h]

/-- Settles O19: HLT's cycle halts and completes, and past memory there is no opcode byte to fetch. -/
theorem hltHalts : Obligations.HltHalts := by
  refine ⟨decode_hlt, fun s => ⟨_, exec_hlt s, ?_⟩, fun s hr hpc => ?_⟩
  · simp [Instr.operandCount_hlt]
  · exact step_of_fetch_error hr (fetch_of_pc_ge hpc.ge)

end Machine

end Sys2Proof

end

/-! ## The family 41_datamove: LDI and PRN -/

section

namespace Sys2Proof

theorem Instr.operandCount_ldi (a imm : Byte) : (Instr.ldi a imm).operandCount = 2 := rfl

theorem Instr.operandCount_prn (a : Byte) : (Instr.prn a).operandCount = 1 := rfl

theorem decode_ldi (a imm : Byte) (rest : List Byte) :
    decode (0x82 :: a :: imm :: rest) = .ok (.ldi a imm, rest) := rfl

theorem decode_prn (a : Byte) (rest : List Byte) : decode (0x47 :: a :: rest) = .ok (.prn a, rest) := rfl

namespace Machine

/-! ### The end of a cycle, and an instruction cut off at the end of memory -/

@[simp] theorem readReg_completeCycle (s : State) (i : Instr) (j : Byte) :
    readReg (s.completeCycle i) j = readReg s j := rfl

/-- Completing a cycle does not wrap pc where the whole instruction lies in memory. -/
theorem completeCycle_pc_toNat_of_le {s : State} {i : Instr} (h : s.pc.toNat + i.operandCount ≤ 255) :
    (s.completeCycle i).pc.toNat = s.pc.toNat + 1 + i.operandCount := by
  rw [State.completeCycle_pc, BitVec.toNat_add, BitVec.toNat_ofNat]
  omega

/-- An opcode whose last operand byte would lie past address 255 fails the fetch (60_exceptions.md R121). -/
theorem fetch_of_operands_cut_off {s : State} (m : Mnemonic)
    (hop : s.mem.read s.pc.toNat = .ok (rowOf m).opcode) (hcut : 256 ≤ s.pc.toNat + (rowOf m).operandCount) :
    fetch s = .error .addressOutOfRange := by
  obtain ⟨hp, hget⟩ := Memory.read_eq_ok.1 hop
  have hrow : lookupOpcode (s.mem.get s.pc.toNat) = some (rowOf m) := by rw [hget, lookupOpcode_rowOf]
  have hpast : (rowOf m).operandCount ≠ 0 ∧ 256 < s.pc.toNat + 1 + (rowOf m).operandCount := by omega
  rw [fetch_spec, if_neg (by omega), hrow]
  exact if_pos hpast

/-! ### LDI (O20) -/

theorem exec_ldi_of_lt {a : Byte} (ha : a.toNat < 8) (imm : Byte) (s : State) :
    exec (.ldi a imm) s = .next ((s.setReg ⟨a.toNat, ha⟩ imm).completeCycle (.ldi a imm)) := by
  obtain ⟨_, ⟨_, rfl⟩, hx⟩ := exec_of_wellFormed (i := .ldi a imm) (wellFormed_ldi.2 ha) s
  exact hx

theorem exec_ldi_of_ge {a : Byte} (ha : 8 ≤ a.toNat) (imm : Byte) (s : State) :
    exec (.ldi a imm) s = .next (s.raise .registerOutOfRange) :=
  exec_of_not_wellFormed (Bool.eq_false_iff.2 fun hw => (wellFormed_ldi.1 hw).not_ge ha) s

/-- Settles O20: LDI sets one register and completes, an index of 8 or more raises, and both operand bytes must lie
in memory. -/
theorem ldiWritesImmediate : Obligations.LdiWritesImmediate := by
  intro s a imm
  refine ⟨decode_ldi a imm, fun ha => ?_, fun ha => exec_ldi_of_ge ha imm s, fun hr hop hpc => ?_⟩
  · have ha' : a.toNat < 8 := by omega
    refine ⟨_, exec_ldi_of_lt ha' imm s, ?_, fun j hj => ?_, rfl, fun hp => ?_, rfl, rfl⟩
    · rw [readReg_completeCycle, readReg_setReg, if_pos rfl]
    · rw [readReg_completeCycle, readReg_setReg, if_neg fun h => hj (BitVec.eq_of_toNat_eq h)]
    · exact completeCycle_pc_toNat_of_le (by rw [Instr.operandCount_ldi, State.setReg_pc]; omega)
  · have hcut : 256 ≤ s.pc.toNat + 2 := by omega
    exact step_of_fetch_error hr (fetch_of_operands_cut_off .ldi hop hcut)

/-! ### PRN (O21) -/

theorem exec_prn_of_lt {a : Byte} (ha : a.toNat < 8) (s : State) :
    exec (.prn a) s = .next ((s.emitOut s.regs[a.toNat]).completeCycle (.prn a)) := by
  obtain ⟨_, ⟨_, rfl⟩, hx⟩ := exec_of_wellFormed (i := .prn a) (wellFormed_prn.2 ha) s
  exact hx

theorem exec_prn_of_ge {a : Byte} (ha : 8 ≤ a.toNat) (s : State) :
    exec (.prn a) s = .next (s.raise .registerOutOfRange) :=
  exec_of_not_wellFormed (Bool.eq_false_iff.2 fun hw => (wellFormed_prn.1 hw).not_ge ha) s

/-- Settles O21: PRN emits the value of its register and completes, an index of 8 or more raises, and the operand
byte must lie in memory. -/
theorem prnEmitsRegister : Obligations.PrnEmitsRegister := by
  intro s a
  refine ⟨decode_prn a, fun ha => ?_, fun ha => exec_prn_of_ge ha s, fun hr hop hpc => ?_⟩
  · have ha' : a.toNat < 8 := by omega
    refine ⟨_, _, readReg_of_lt ha', exec_prn_of_lt ha' s, rfl, rfl, rfl, rfl, rfl, fun hp => ?_, rfl⟩
    exact completeCycle_pc_toNat_of_le (by rw [Instr.operandCount_prn, State.emitOut_pc]; omega)
  · have hcut : 256 ≤ s.pc.toNat + 1 := by omega
    exact step_of_fetch_error hr (fetch_of_operands_cut_off .prn hop hcut)

end Machine

end Sys2Proof

end

/-! ## The family 42_arithmetic: the ALU, ADD and SUB -/

section

namespace Sys2Proof

theorem Instr.operandCount_add (a b : Byte) : (Instr.add a b).operandCount = 2 := rfl

theorem Instr.operandCount_sub (a b : Byte) : (Instr.sub a b).operandCount = 2 := rfl

theorem decode_add (a b : Byte) (rest : List Byte) :
    decode (0xA0 :: a :: b :: rest) = .ok (.add a b, rest) := rfl

theorem decode_sub (a b : Byte) (rest : List Byte) :
    decode (0xA1 :: a :: b :: rest) = .ok (.sub a b, rest) := rfl

namespace Machine

/-! ### The sum and the difference of two bytes, in natural numbers and in integers -/

theorem toNat_add_byte (x y : Byte) : (x + y).toNat = (x.toNat + y.toNat) % 256 := BitVec.toNat_add x y

/-- The difference is the non-negative remainder of the exact one (42_arithmetic.md R104). -/
theorem toNat_sub_byte (x y : Byte) : ((x - y).toNat : Int) = ((x.toNat : Int) - (y.toNat : Int)) % 256 := by
  rw [← ofInt_toNat_sub, toNat_ofInt_byte]

/-! ### Reading a register after the write of one named by an operand byte -/

theorem readReg_setReg_self {a : Byte} (ha : a.toNat < 8) (s : State) (v : Byte) :
    readReg (s.setReg ⟨a.toNat, ha⟩ v) a = .ok v := by
  rw [readReg_setReg, if_pos rfl]

/-- No index is masked, so different operand bytes name different registers (10_state.md R13). -/
theorem readReg_setReg_of_ne {a j : Byte} (ha : a.toNat < 8) (s : State) (v : Byte) (hj : j ≠ a) :
    readReg (s.setReg ⟨a.toNat, ha⟩ v) j = readReg s j := by
  rw [readReg_setReg, if_neg fun h => hj (BitVec.eq_of_toNat_eq h)]

/-! ### The ALU (O24) -/

section Alu

variable {d src : Byte}

theorem aluApply_of_ge (h : 8 ≤ d.toNat ∨ 8 ≤ src.toNat) (op : AluTag) (s : State) :
    aluApply op d src s = .error .registerOutOfRange := by
  rw [aluApply_spec, dif_neg (by omega)]

theorem aluApply_add_of_lt (hd : d.toNat < 8) (hs : src.toNat < 8) (s : State) :
    aluApply .add d src s = .ok (s.setReg ⟨d.toNat, hd⟩ (s.regs[d.toNat] + s.regs[src.toNat])) := by
  rw [aluApply_spec, dif_pos ⟨hd, hs⟩]

theorem aluApply_sub_of_lt (hd : d.toNat < 8) (hs : src.toNat < 8) (s : State) :
    aluApply .sub d src s = .ok (s.setReg ⟨d.toNat, hd⟩ (s.regs[d.toNat] - s.regs[src.toNat])) := by
  rw [aluApply_spec, dif_pos ⟨hd, hs⟩]

theorem aluApply_other_of_lt (hd : d.toNat < 8) (hs : src.toNat < 8) (tag : Nat) (s : State) :
    aluApply (.other tag) d src s = .error .unsupportedALUOperation := by
  rw [aluApply_spec, dif_pos ⟨hd, hs⟩]

end Alu

/-- Settles O24, tag by tag: ADD and SUB set the first register alone, and any other tag fails. -/
theorem aluAppliesToFirstRegister : Obligations.AluAppliesToFirstRegister := by
  intro op d src s
  refine ⟨fun h => aluApply_of_ge h op s, fun hd hs => ?_⟩
  have hd' : d.toNat < 8 := by omega
  have hs' : src.toNat < 8 := by omega
  refine ⟨_, _, readReg_of_lt hd', readReg_of_lt hs', ?_⟩
  cases op with
  | add =>
    exact ⟨_, _, aluApply_add_of_lt hd' hs' s, readReg_setReg_self hd' s _, toNat_add_byte _ _,
      fun _ hj => readReg_setReg_of_ne hd' s _ hj, rfl⟩
  | sub =>
    exact ⟨_, _, aluApply_sub_of_lt hd' hs' s, readReg_setReg_self hd' s _, toNat_sub_byte _ _,
      fun _ hj => readReg_setReg_of_ne hd' s _ hj, rfl⟩
  | other tag => exact aluApply_other_of_lt hd' hs' tag s

/-! ### The meanings of ADD and SUB -/

section Exec

variable {a b : Byte}

theorem exec_add_of_lt (ha : a.toNat < 8) (hb : b.toNat < 8) (s : State) :
    exec (.add a b) s =
      .next ((s.setReg ⟨a.toNat, ha⟩ (s.regs[a.toNat] + s.regs[b.toNat])).completeCycle (.add a b)) := by
  obtain ⟨_, ⟨_, _, rfl⟩, hx⟩ := exec_of_wellFormed (wellFormed_add.2 ⟨ha, hb⟩) s
  exact hx

theorem exec_sub_of_lt (ha : a.toNat < 8) (hb : b.toNat < 8) (s : State) :
    exec (.sub a b) s =
      .next ((s.setReg ⟨a.toNat, ha⟩ (s.regs[a.toNat] - s.regs[b.toNat])).completeCycle (.sub a b)) := by
  obtain ⟨_, ⟨_, _, rfl⟩, hx⟩ := exec_of_wellFormed (wellFormed_sub.2 ⟨ha, hb⟩) s
  exact hx

theorem exec_add_of_ge (h : 8 ≤ a.toNat ∨ 8 ≤ b.toNat) (s : State) :
    exec (.add a b) s = .next (s.raise .registerOutOfRange) := by
  refine exec_of_not_wellFormed (Bool.eq_false_iff.2 fun hw => ?_) s
  obtain ⟨ha, hb⟩ := wellFormed_add.1 hw
  omega

theorem exec_sub_of_ge (h : 8 ≤ a.toNat ∨ 8 ≤ b.toNat) (s : State) :
    exec (.sub a b) s = .next (s.raise .registerOutOfRange) := by
  refine exec_of_not_wellFormed (Bool.eq_false_iff.2 fun hw => ?_) s
  obtain ⟨ha, hb⟩ := wellFormed_sub.1 hw
  omega

end Exec

/-! ### What ADD and SUB share -/

theorem readReg_setReg_completeCycle_self {a : Byte} (ha : a.toNat < 8) (s : State) (v : Byte) (i : Instr) :
    readReg ((s.setReg ⟨a.toNat, ha⟩ v).completeCycle i) a = .ok v := by
  rw [readReg_completeCycle, readReg_setReg_self]

/-- What the completed cycle of a three-byte register write leaves, and where it moves pc. -/
theorem setReg_completeCycle_frame {a : Byte} (ha : a.toNat < 8) (s : State) (v : Byte) {i : Instr}
    (hi : i.operandCount = 2) {t : State} (ht : t = (s.setReg ⟨a.toNat, ha⟩ v).completeCycle i) :
    (∀ j, j ≠ a → readReg t j = readReg s j) ∧ t.pc = s.pc + 3 ∧
      (s.pc.toNat ≤ 253 → t.pc.toNat = s.pc.toNat + 3) ∧ t.flags = s.flags ∧ t.runState = s.runState := by
  subst ht
  refine ⟨fun j hj => ?_, ?_, fun hp => ?_, rfl, rfl⟩
  · rw [readReg_completeCycle, readReg_setReg_of_ne ha s v hj]
  · rw [State.completeCycle_pc, State.setReg_pc, hi]
    rfl
  · rw [completeCycle_pc_toNat_of_le (by rw [hi, State.setReg_pc]; omega), State.setReg_pc, hi]

/-- A three-byte instruction at address 254 or 255 is cut off by the end of memory (60_exceptions.md R121). -/
theorem step_of_three_bytes_cut_off {s : State} (m : Mnemonic) (hm : (rowOf m).operandCount = 2)
    (hr : s.runState = .running) (hop : s.mem.read s.pc.toNat = .ok (rowOf m).opcode)
    (hpc : s.pc.toNat = 254 ∨ s.pc.toNat = 255) : step s = .next (s.raise .addressOutOfRange) :=
  step_of_fetch_error hr (fetch_of_operands_cut_off m hop (by omega))

/-! ### ADD (O22) and SUB (O23) -/

/-- Settles O22: ADD sets the first register to the sum and completes, an index of 8 or more raises, and both operand
bytes must lie in memory. -/
theorem addWritesSumModulo256 : Obligations.AddWritesSumModulo256 := by
  intro s a b
  refine ⟨decode_add a b, fun ha hb => ?_, fun h => exec_add_of_ge h s, step_of_three_bytes_cut_off .add rfl⟩
  have ha' : a.toNat < 8 := by omega
  have hb' : b.toNat < 8 := by omega
  exact ⟨_, _, _, _, readReg_of_lt ha', readReg_of_lt hb', exec_add_of_lt ha' hb' s,
    readReg_setReg_completeCycle_self ha' s _ _, toNat_add_byte _ _,
    setReg_completeCycle_frame ha' s _ (Instr.operandCount_add a b) rfl⟩

/-- Settles O23: SUB sets the first register to the difference and completes, an index of 8 or more raises, and both
operand bytes must lie in memory. -/
theorem subWritesDifferenceModulo256 : Obligations.SubWritesDifferenceModulo256 := by
  intro s a b
  refine ⟨decode_sub a b, fun ha hb => ?_, fun h => exec_sub_of_ge h s, step_of_three_bytes_cut_off .sub rfl⟩
  have ha' : a.toNat < 8 := by omega
  have hb' : b.toNat < 8 := by omega
  exact ⟨_, _, _, _, readReg_of_lt ha', readReg_of_lt hb', exec_sub_of_lt ha' hb' s,
    readReg_setReg_completeCycle_self ha' s _ _, toNat_sub_byte _ _,
    setReg_completeCycle_frame ha' s _ (Instr.operandCount_sub a b) rfl⟩

/-! ### Two's complement, and SUB after ADD (O25) -/

/-- Writing the sum of two different registers to the first and then subtracting the second, which still holds its
value, writes the first one's own value back. -/
theorem regs_set_add_set_sub (r : RegFile) {a b : Nat} (ha : a < 8) (hb : b < 8) (hab : a ≠ b) :
    (r.set a (r[a] + r[b])).set a ((r.set a (r[a] + r[b]))[a] - (r.set a (r[a] + r[b]))[b]) = r := by
  rw [Vector.getElem_set_self, Vector.getElem_set_ne _ _ hab, BitVec.add_sub_cancel, Vector.set_set,
    Vector.set_getElem_self]

/-- SUB undoes the ADD of another register, in the state in which the ADD's cycle ends. -/
theorem exec_sub_after_add {a b : Byte} (ha : a.toNat < 8) (hb : b.toNat < 8) (hab : a ≠ b) {s t : State}
    (ht : exec (.add a b) s = .next t) : ∃ u, exec (.sub a b) t = .next u ∧ u.regs = s.regs := by
  obtain rfl := Host.Outcome.next.inj ((exec_add_of_lt ha hb s).symm.trans ht)
  exact ⟨_, exec_sub_of_lt ha hb _, regs_set_add_set_sub s.regs ha hb fun h => hab (BitVec.eq_of_toNat_eq h)⟩

/-- Settles O25: addition and subtraction of bit vectors are the wrapped ones of either reading. -/
theorem arithmeticIsModulo256 : Obligations.ArithmeticIsModulo256 := by
  intro s a b ha hb
  have ha' : a.toNat < 8 := by omega
  have hb' : b.toNat < 8 := by omega
  have hadd := exec_add_of_lt ha' hb' s
  refine ⟨_, _, readReg_of_lt ha', readReg_of_lt hb', ?_, ?_⟩
  · exact ⟨_, _, hadd, readReg_setReg_completeCycle_self ha' s _ _, BitVec.toInt_add _ _,
      fun hab => exec_sub_after_add ha' hb' hab hadd⟩
  · exact ⟨_, _, exec_sub_of_lt ha' hb' s, readReg_setReg_completeCycle_self ha' s _ _, BitVec.toInt_sub⟩

end Machine

end Sys2Proof

end

/-! ## The family 60_exceptions: the frames of the instructions, the faults and the outcome of a run -/

section

namespace Sys2Proof.Machine

/-! ### The frame of the instructions that write a register (O27) -/

/-- The execute step of LDI, ADD or SUB is one register write (41_datamove.md R90, 42_arithmetic.md R103, R104). -/
theorem Executed.eq_setReg {s s' : State} {i : Instr} {a b : Byte} (h : Executed s s' i)
    (hi : i = .ldi a b ∨ i = .add a b ∨ i = .sub a b) :
    ∃ (ha : a.toNat < 8) (v : Byte), s' = s.setReg ⟨a.toNat, ha⟩ v := by
  obtain rfl | rfl | rfl := hi
  · obtain ⟨ha, rfl⟩ := h
    exact ⟨ha, _, rfl⟩
  · obtain ⟨ha, _, rfl⟩ := h
    exact ⟨ha, _, rfl⟩
  · obtain ⟨ha, _, rfl⟩ := h
    exact ⟨ha, _, rfl⟩

/-- Settles O27: the cycle either writes register A alone and completes, or raises the fault. -/
theorem registerWritersFrame : Obligations.RegisterWritersFrame := by
  intro i a b s t hi h
  obtain ⟨hw, s', he, rfl⟩ | ⟨hw, rfl⟩ := exec_cases h
  · obtain ⟨ha, v, rfl⟩ := he.eq_setReg hi
    exact ⟨fun j hj => readReg_setReg_of_ne ha s v hj, rfl, rfl, rfl, fun _ => rfl, rfl, rfl, rfl, fun _ => rfl,
      fun hw' => absurd hw (Bool.eq_false_iff.1 hw')⟩
  · exact ⟨fun _ _ => rfl, rfl, rfl, rfl, fun _ => rfl, rfl, rfl, rfl,
      fun hw' => absurd hw' (Bool.eq_false_iff.1 hw), fun _ => rfl⟩

/-! ### The frame of HLT and PRN (O28) -/

/-- Settles O28: HLT halts, PRN of a register that exists emits, and PRN of any other raises the fault. -/
theorem hltAndPrnFrame : Obligations.HltAndPrnFrame := by
  rintro i a s t (rfl | rfl) h
  · obtain rfl := Host.Outcome.next.inj ((exec_hlt s).symm.trans h)
    exact ⟨fun _ => rfl, rfl, rfl, rfl, fun _ => rfl, rfl, rfl, fun _ => rfl, nofun, nofun⟩
  · obtain ha | ha := Nat.lt_or_ge a.toNat 8
    · obtain rfl := Host.Outcome.next.inj ((exec_prn_of_lt ha s).symm.trans h)
      exact ⟨fun _ => rfl, rfl, rfl, rfl, fun _ => rfl, rfl, rfl, nofun, fun _ _ => rfl,
        fun _ hge => absurd ha (Nat.not_lt.2 hge)⟩
    · obtain rfl := Host.Outcome.next.inj ((exec_prn_of_ge ha s).symm.trans h)
      exact ⟨fun _ => rfl, rfl, rfl, rfl, fun _ => rfl, rfl, rfl, nofun,
        fun _ hle => absurd ha (Nat.lt_succ_of_le hle).not_ge, fun _ _ => rfl⟩

/-! ### RegisterOutOfRange (O29) -/

theorem wellFormed_eq_false_iff {i : Instr} :
    i.wellFormed = false ↔ ∃ r ∈ i.registerOperands, 7 < r.toNat := by
  simp only [Instr.wellFormed, List.all_eq_false, validIndex_iff, not_lt]
  rfl

theorem exec_registerOutOfRange_iff {i : Instr} {s t : State} (hr : s.runState = .running)
    (h : exec i s = .next t) :
    (∃ p, t.runState = .faulted .registerOutOfRange p) ↔ ∃ r ∈ i.registerOperands, 7 < r.toNat := by
  rw [← wellFormed_eq_false_iff]
  obtain ⟨hw, s', he, rfl⟩ | ⟨hw, rfl⟩ := exec_cases h
  · simp [hw, he.not_faulted hr]
  · simp [hw]

/-- Settles O29: the register operands of each form are the bytes the rule names. -/
theorem registerOutOfRangeExactlyOnBadIndex : Obligations.RegisterOutOfRangeExactlyOnBadIndex := by
  intro i s t hr h
  rw [exec_registerOutOfRange_iff hr h]
  cases i with
  | hlt => simp [Instr.registerOperands]
  | ldi a imm => simp [Instr.registerOperands]
  | prn a => simp [Instr.registerOperands]
  | add a b => simp [Instr.registerOperands]
  | sub a b => simp [Instr.registerOperands]

/-! ### The order of the checks (O32) -/

section Checks

variable {m : Mnemonic} {op : Byte}

/-- An operand fetch fails: A of an instruction at 255, or B of a three-byte one at 254 (60_exceptions.md R121). -/
theorem operands_cut_off_iff (hop : op = (rowOf m).opcode) {p : Nat} (hp : p ≤ 255) :
    256 ≤ p + (rowOf m).operandCount ↔ (op ≠ 0x01 ∧ p = 255) ∨ (op ≠ 0x01 ∧ op ≠ 0x47 ∧ p = 254) := by
  subst hop
  cases m <;> simp [rowOf] <;> omega

/-- A register check fails: A of any instruction that has one, or B of ADD and SUB (60_exceptions.md R122). -/
theorem instr_wellFormed_eq_false_iff (hop : op = (rowOf m).opcode) (a b : Byte) :
    (m.instr a b).wellFormed = false ↔
      (op ≠ 0x01 ∧ 7 < a.toNat) ∨ ((op = 0xA0 ∨ op = 0xA1) ∧ 7 < b.toNat) := by
  rw [wellFormed_eq_false_iff, hop]
  cases m <;> simp [Mnemonic.instr, Instr.registerOperands, rowOf]

/-- With the opcode known and no operand past address 255, the fetch answers the instruction at pc. -/
theorem fetch_of_opcode {s : State} (hop : s.mem.get s.pc.toNat = (rowOf m).opcode)
    (hin : s.pc.toNat + (rowOf m).operandCount < 256) :
    fetch s = .ok (m.instr (s.mem.get (s.pc.toNat + 1)) (s.mem.get (s.pc.toNat + 2))) := by
  have hfits : ¬((rowOf m).operandCount ≠ 0 ∧ 256 < s.pc.toNat + 1 + (rowOf m).operandCount) := by omega
  rw [fetch_spec, if_neg (by omega), hop, lookupOpcode_rowOf]
  simp only [if_neg hfits, rowOf_mnemonic]

end Checks

/-- A cycle in which no check fails completes: HLT's halts, any other stays Running (10_state.md R23, R24). -/
theorem step_completes {s : State} {i : Instr} (hr : s.runState = .running) (hf : fetch s = .ok i)
    (hw : i.wellFormed = true) :
    ∃ t, step s = .next t ∧
      t.runState = (if i.opcode = 0x01 then .halted else .running) ∧ t.cycles = s.cycles + 1 := by
  obtain ⟨s', he, hx⟩ := exec_of_wellFormed hw s
  refine ⟨_, (step_of_fetch_ok hr hf).trans hx, ?_, ?_⟩
  · simp only [State.completeCycle_runState, he.runState_eq, hr, Instr.opcode_eq_one]
  · rw [State.completeCycle_cycles, he.cycles_eq]

/-- Settles O32, check by check: the opcode fetch, the decode, the operand fetches, the registers. The two operand
fetches raise one kind and the two register checks another, so each pair is one check. -/
theorem firstFailingCheckIsReported : Obligations.FirstFailingCheckIsReported := by
  intro s hr p op a b
  by_cases hpast : 255 < p
  · simp only [if_pos hpast]
    exact ⟨_, step_of_fetch_error hr (fetch_of_pc_ge hpast), rfl⟩
  have hread : s.mem.read p = .ok op := Memory.read_of_lt (by omega)
  by_cases hop : op ∉ [(0x01 : Byte), 0x47, 0x82, 0xA0, 0xA1]
  · simp only [if_neg hpast, if_pos hop]
    exact ⟨_, step_of_fetch_error hr (fetch_of_unknown hread (lookupOpcode_eq_none_of_not_mem hop)), rfl⟩
  obtain ⟨m, hm⟩ := mem_opcodes.1 (not_not.1 hop)
  simp only [if_neg hpast, if_neg hop, ← ite_or, ← operands_cut_off_iff hm (Nat.le_of_not_lt hpast),
    ← instr_wellFormed_eq_false_iff hm a b]
  by_cases hoff : 256 ≤ p + (rowOf m).operandCount
  · simp only [if_pos hoff]
    exact ⟨_, step_of_fetch_error hr (fetch_of_operands_cut_off m (hm ▸ hread) hoff), rfl⟩
  have hf : fetch s = .ok (m.instr a b) := fetch_of_opcode hm (Nat.lt_of_not_le hoff)
  by_cases hbad : (m.instr a b).wellFormed = false
  · simp only [if_neg hoff, if_pos hbad]
    exact ⟨_, (step_of_fetch_ok hr hf).trans (exec_of_not_wellFormed hbad s), rfl⟩
  · simp only [if_neg hoff, if_neg hbad]
    have hdone := step_completes hr hf (Bool.eq_true_of_not_eq_false hbad)
    rwa [Instr.opcode_eq, Mnemonic.instr_mnemonic, ← hm] at hdone

/-! ### The outcome of a run (O44) -/

/-- A step that stays Running starts at an address of memory and moves pc up, without passing 256. -/
theorem pc_of_step_running {s t : State} (h : step s = .next t) (ht : t.runState = .running) :
    s.pc.toNat < t.pc.toNat ∧ t.pc.toNat ≤ 256 := by
  obtain ⟨hr, rfl⟩ | ⟨-, k, -, rfl⟩ | ⟨-, i, s', hf, he, rfl⟩ := step_next_cases h
  · exact absurd ht hr
  · cases ht
  · obtain ⟨hp, -⟩ := fetch_eq_ok.1 hf
    rw [completeCycle_pc_toNat hf he]
    omega

/-- Every step that stays Running takes pc nearer to 256, at which the next one faults (70_reset_and_hazards.md
R158). -/
theorem core_run_ends {k : Nat} {s t : State} (hpos : 0 < k) (hk : 257 ≤ k + s.pc.toNat)
    (h : Sys2Proof.core.run k s = .next t) : t.runState ≠ .running := by
  induction k generalizing s with
  | zero => cases hpos
  | succ k ih =>
    obtain ⟨u, hu⟩ := step_next s
    rw [core_run_succ hu] at h
    by_cases hur : u.runState = .running
    · obtain ⟨hlt, hle⟩ := pc_of_step_running hu hur
      exact ih (by omega) (by omega) h
    · obtain rfl := Host.Outcome.next.inj ((core_run_of_terminal hur k).symm.trans h)
      exact hur

theorem runOutcome_of_run {s t : State} (h : run s = .next t) : runOutcome s = t.runState.outcome := by
  rw [runOutcome, h]

/-- Settles O44: the loop of run() is 257 steps, which end in a terminal state. -/
theorem runReturnsOutcome : Obligations.RunReturnsOutcome := by
  intro s
  obtain ⟨t, ht⟩ := core_run_next 257 s
  have hrun : run s = .next t := (runLoop_eq_core_run 257 s).trans ht
  refine ⟨t, hrun, ht, ?_⟩
  rw [runOutcome_of_run hrun]
  cases hrs : t.runState with
  | running => exact absurd hrs (core_run_ends (by omega) (by omega) ht)
  | halted => exact .inl ⟨rfl, rfl⟩
  | faulted k p => exact .inr ⟨k, p, rfl, rfl⟩

end Sys2Proof.Machine

end

/-! ## The family 70_reset_and_hazards: the launch, the end of every run, and what a run depends on -/

section

namespace Sys2Proof.Machine

/-! ### The launch (O36) -/

@[simp] theorem resetWith_launchPending (b : Bool) : (State.resetWith b).launchPending = true := rfl

section Load

variable {s : State} {program : List Byte}

theorem load_of_length_le (hs : s.launchPending = true) (hlen : program.length ≤ 256) :
    load program s = .next { s with mem := s.mem.writeBytes 0 program, programLoaded := true } := by
  simp [load, hs, Nat.not_lt.2 hlen]

theorem load_of_length_gt (hs : s.launchPending = true) (hlen : 256 < program.length) :
    load program s = .fault .programTooLarge := by
  simp [load, hs, hlen]

end Load

/-- Each byte of a program that fits in memory is read back at its index. -/
theorem Memory.read_writeBytes_zero {m : Memory} (h : m.wf) {program : List Byte} (hlen : program.length ≤ 256)
    {k : Nat} {v : Byte} (hk : program[k]? = some v) : (m.writeBytes 0 program).read k = .ok v := by
  obtain ⟨hklen, -⟩ := List.getElem?_eq_some_iff.1 hk
  have hget := Memory.get_writeBytes_at h (a := 0) hk (by omega)
  rw [Nat.zero_add] at hget
  exact Memory.read_eq_ok.2 ⟨by omega, hget⟩

/-- An address past the program, outside memory too, reads as before. -/
theorem Memory.read_writeBytes_zero_above {m : Memory} (h : m.wf) {program : List Byte} {k : Nat}
    (hk : program.length ≤ k) : (m.writeBytes 0 program).read k = m.read k := by
  rw [Memory.read, Memory.read, Memory.get_writeBytes_above h program (by omega)]

/-- Settles O36: the load at reset stores into memory in which no cell is listed, and touches nothing else. -/
theorem launchPlacesProgram : Obligations.LaunchPlacesProgram := by
  intro b program
  refine ⟨fun hlen => ⟨_, load_of_length_le (resetWith_launchPending b) hlen, ?_, ?_, rfl, rfl, rfl⟩,
    load_of_length_gt (resetWith_launchPending b)⟩
  · exact fun k v hk => Memory.read_writeBytes_zero Memory.wf_nil hlen hk
  · intro k hk hle
    have hcell : (State.resetWith b).mem.read k = .ok 0 := Memory.read_of_lt (Nat.lt_succ_of_le hle)
    exact (Memory.read_writeBytes_zero_above Memory.wf_nil hk).trans hcell

/-! ### Termination (O43) -/

/-- Settles O43: a run answers a next state, and 257 steps are enough from any pc. -/
theorem everyRunTerminates : Obligations.EveryRunTerminates := by
  intro s
  obtain ⟨t, ht⟩ := core_run_next 257 s
  exact ⟨t, ht, core_run_ends (by omega) (by omega) ht⟩

/-! ### What a run depends on (O47) -/

/-- The states agree on all that a cycle reads: registers, pc, memory and run state (70_reset_and_hazards.md R159). -/
structure State.Alike (s s' : State) : Prop where
  regs : s.regs = s'.regs
  pc : s.pc = s'.pc
  mem : s.mem = s'.mem
  runState : s.runState = s'.runState

/-- From s to t the values o were emitted and c cycles counted, and the records r traced where the trace port is
connected (10_state.md R24). -/
structure State.Appended (s t : State) (o : List Byte) (c : Nat) (r : List TraceRecord) : Prop where
  out : t.out = s.out ++ o
  cycles : t.cycles = s.cycles + c
  trace : t.trace = s.trace ++ (if s.traceEnabled = true then r else [])
  traceEnabled : t.traceEnabled = s.traceEnabled

theorem State.Appended.refl (s : State) : s.Appended s [] 0 [] where
  out := (List.append_nil _).symm
  cycles := rfl
  trace := by rw [ite_self, List.append_nil]
  traceEnabled := rfl

/-- A faulting cycle appends and counts nothing (60_exceptions.md R127). -/
theorem State.appended_raise (s : State) (k : ErrorKind) : s.Appended (s.raise k) [] 0 [] :=
  have h := State.Appended.refl s
  ⟨h.out, h.cycles, h.trace, h.traceEnabled⟩

theorem State.Appended.trans {s t u : State} {o o' : List Byte} {c c' : Nat} {r r' : List TraceRecord}
    (h : s.Appended t o c r) (h' : t.Appended u o' c' r') : s.Appended u (o ++ o') (c + c') (r ++ r') where
  out := by rw [h'.out, h.out, List.append_assoc]
  cycles := by rw [h'.cycles, h.cycles, Nat.add_assoc]
  trace := by
    rw [h'.trace, h.trace, h.traceEnabled]
    split_ifs <;> simp
  traceEnabled := h'.traceEnabled.trans h.traceEnabled

/-- A completed cycle counts as one and traces one record. -/
theorem Executed.appended_completeCycle {s u : State} {i : Instr} {o : List Byte} (he : Executed s u i)
    (ho : u.out = s.out ++ o) : s.Appended (u.completeCycle i) o 1 [u.traceRecord i] where
  out := ho
  cycles := by rw [State.completeCycle_cycles, he.cycles_eq]
  trace := by
    rw [State.completeCycle_trace, he.traceEnabled_eq, he.trace_eq]
    split_ifs <;> simp
  traceEnabled := he.traceEnabled_eq

section Alike

variable {s s' : State}

theorem State.Alike.fetch_eq (h : s.Alike s') : fetch s = fetch s' := by
  rw [fetch_spec, fetch_spec, h.mem, h.pc]

theorem State.Alike.traceRecord_eq (h : s.Alike s') (i : Instr) : s.traceRecord i = s'.traceRecord i := by
  simp only [State.traceRecord, h.pc, h.regs]

theorem State.Alike.setReg (h : s.Alike s') (i : Fin 8) {v v' : Byte} (hv : v = v') :
    (s.setReg i v).Alike (s'.setReg i v') := by
  subst hv
  exact ⟨congrArg (·.set i v) h.regs, h.pc, h.mem, h.runState⟩

theorem State.Alike.raise (h : s.Alike s') (k : ErrorKind) : (s.raise k).Alike (s'.raise k) :=
  ⟨h.regs, h.pc, h.mem, congrArg (RunState.faulted k) h.pc⟩

theorem State.Alike.completeCycle (h : s.Alike s') (i : Instr) : (s.completeCycle i).Alike (s'.completeCycle i) :=
  ⟨h.regs, congrArg (· + BitVec.ofNat 9 (1 + i.operandCount)) h.pc, h.mem, h.runState⟩

/-- One instruction leaves states alike and emits the same values in both, since its operands come from the
registers and its own bytes alone. -/
theorem State.Alike.executed {u u' : State} {i : Instr} (h : s.Alike s') (he : Executed s u i)
    (he' : Executed s' u' i) : u.Alike u' ∧ ∃ o, u.out = s.out ++ o ∧ u'.out = s'.out ++ o := by
  have hnone : ∃ o, s.out = s.out ++ o ∧ s'.out = s'.out ++ o :=
    ⟨[], (List.append_nil _).symm, (List.append_nil _).symm⟩
  cases i with
  | hlt =>
    cases he
    cases he'
    exact ⟨⟨h.regs, h.pc, h.mem, rfl⟩, hnone⟩
  | ldi a imm =>
    obtain ⟨-, rfl⟩ := he
    obtain ⟨-, rfl⟩ := he'
    exact ⟨h.setReg _ rfl, hnone⟩
  | prn a =>
    obtain ⟨ha, rfl⟩ := he
    obtain ⟨-, rfl⟩ := he'
    exact ⟨⟨h.regs, h.pc, h.mem, h.runState⟩, [s.regs[a.toNat]], rfl, by simp only [State.emitOut_out, h.regs]⟩
  | add a b =>
    obtain ⟨-, -, rfl⟩ := he
    obtain ⟨-, -, rfl⟩ := he'
    exact ⟨h.setReg _ (by simp only [h.regs]), hnone⟩
  | sub a b =>
    obtain ⟨-, -, rfl⟩ := he
    obtain ⟨-, -, rfl⟩ := he'
    exact ⟨h.setReg _ (by simp only [h.regs]), hnone⟩

/-- One step from states alike: both stay, both raise the same fault, or both complete the same cycle. -/
theorem step_of_alike (h : s.Alike s') :
    ∃ t t' o c r, step s = .next t ∧ step s' = .next t' ∧ t.Alike t' ∧
      s.Appended t o c r ∧ s'.Appended t' o c r := by
  by_cases hr : s.runState = .running
  · have hr' : s'.runState = .running := h.runState.symm.trans hr
    cases hf : fetch s with
    | error k =>
      have hf' : fetch s' = .error k := h.fetch_eq.symm.trans hf
      exact ⟨_, _, [], 0, [], step_of_fetch_error hr hf, step_of_fetch_error hr' hf', h.raise k,
        s.appended_raise k, s'.appended_raise k⟩
    | ok i =>
      have hf' : fetch s' = .ok i := h.fetch_eq.symm.trans hf
      rw [step_of_fetch_ok hr hf, step_of_fetch_ok hr' hf']
      cases hw : i.wellFormed with
      | true =>
        obtain ⟨u, he, hx⟩ := exec_of_wellFormed hw s
        obtain ⟨u', he', hx'⟩ := exec_of_wellFormed hw s'
        obtain ⟨hu, o, ho, ho'⟩ := h.executed he he'
        exact ⟨_, _, o, 1, [u.traceRecord i], hx, hx', hu.completeCycle i, he.appended_completeCycle ho,
          hu.traceRecord_eq i ▸ he'.appended_completeCycle ho'⟩
      | false =>
        exact ⟨_, _, [], 0, [], exec_of_not_wellFormed hw s, exec_of_not_wellFormed hw s', h.raise _,
          s.appended_raise _, s'.appended_raise _⟩
  · have hr' : s'.runState ≠ .running := h.runState ▸ hr
    exact ⟨s, s', [], 0, [], step_of_terminal hr, step_of_terminal hr', h, .refl s, .refl s'⟩

end Alike

/-- Runs from states alike end in states alike and append the same observations, step by step. -/
theorem core_run_of_alike {k : Nat} {s s' t : State} (h : s.Alike s') (ht : Sys2Proof.core.run k s = .next t) :
    ∃ t' o c r, Sys2Proof.core.run k s' = .next t' ∧ t.Alike t' ∧ s.Appended t o c r ∧ s'.Appended t' o c r := by
  induction k generalizing s s' with
  | zero =>
    cases ht
    exact ⟨s', [], 0, [], rfl, h, .refl _, .refl s'⟩
  | succ k ih =>
    obtain ⟨u, u', o, c, r, hs, hs', hu, happ, happ'⟩ := step_of_alike h
    rw [core_run_succ hs] at ht
    obtain ⟨t', o₂, c₂, r₂, ht', htt', happ₂, happ₂'⟩ := ih hu ht
    exact ⟨t', _, _, _, (core_run_succ hs' k).trans ht', htt', happ.trans happ₂, happ'.trans happ₂'⟩

/-- Settles O47, by running both states step by step and collecting what each appends. -/
theorem runIgnoresObservationsAndReservedRegisters : Obligations.RunIgnoresObservationsAndReservedRegisters := by
  intro k s s' t hregs hpc hmem hrun ht
  obtain ⟨t', o, c, r, ht', heq, happ, happ'⟩ := core_run_of_alike ⟨hregs, hpc, hmem, hrun⟩ ht
  exact ⟨t', o, c, r, ht', heq.regs, heq.pc, heq.mem, heq.runState, happ.out, happ'.out, happ.cycles, happ'.cycles,
    happ.trace, happ'.trace⟩

end Sys2Proof.Machine

end

/-! ## Encoding: the round trip, the table's words, and the instruction a step runs -/

section

namespace Sys2Proof

/-! ### Decode and encode (O10) -/

/-- A sequence decodes to an instruction exactly when its first byte is the instruction's opcode and its operand bytes
follow. -/
theorem decode_cons_eq_ok {op : Byte} {bs rest : List Byte} {i : Instr} :
    decode (op :: bs) = .ok (i, rest) ↔ op = i.opcode ∧ bs = i.operands ++ rest := by
  constructor
  · intro h
    cases hrow : lookupOpcode op with
    | none => simp [decode, hrow] at h
    | some row =>
      obtain ⟨m, rfl, rfl⟩ := lookupOpcode_eq_some.1 hrow
      simp only [decode, hrow, rowOf_mnemonic] at h
      obtain ⟨rfl, hbs⟩ := assemble_eq_ok.1 h
      exact ⟨rfl, hbs⟩
  · rintro ⟨rfl, rfl⟩
    simp only [decode, Instr.opcode_eq, lookupOpcode_rowOf, rowOf_mnemonic]
    exact assemble_eq_ok.2 ⟨rfl, rfl⟩

/-- Settles O10: the opcode byte and the operand bytes each determine their part of the instruction. -/
theorem decodeInvertsEncode : Obligations.DecodeInvertsEncode := by
  intro bs rest i
  cases bs with
  | nil => simp [decode, encode]
  | cons op bs => rw [decode_cons_eq_ok, encode, List.cons_append, List.cons.injEq]

/-! ### The words of the opcode table (O11) -/

/-- A word of at most three bytes, none of it at nbits or above, is its bytes in rising order. -/
theorem tableWordBytes_of_lt {op nbits : Nat} (hop : op < 256) (a b : Byte)
    (h : op + 2 ^ 8 * a.toNat + 2 ^ 16 * b.toNat < 2 ^ nbits) :
    tableWordBytes nbits (op + 2 ^ 8 * a.toNat + 2 ^ 16 * b.toNat) = [BitVec.ofNat 8 op, a, b] := by
  have ha := a.isLt
  simp only [tableWordBytes, Nat.mod_eq_of_lt h, List.cons.injEq, and_true]
  refine ⟨?_, ?_, ?_⟩ <;> apply BitVec.eq_of_toNat_eq <;> simp only [BitVec.toNat_ofNat] <;> omega

section TableWord

variable {op : Nat} {a b : Byte} {i : Instr} {rest : List Byte}

theorem decodeTableWord_of_lt {nbits : Nat} (hop : op < 256)
    (h : op + 2 ^ 8 * a.toNat + 2 ^ 16 * b.toNat < 2 ^ nbits)
    (hi : decode [BitVec.ofNat 8 op, a, b] = .ok (i, rest)) :
    decodeTableWord nbits (op + 2 ^ 8 * a.toNat + 2 ^ 16 * b.toNat) = some i := by
  rw [decodeTableWord, tableWordBytes_of_lt hop a b h, hi]

/-- A word of one byte. -/
theorem decodeTableWord_8 (hop : op < 256) (hi : decode [BitVec.ofNat 8 op, 0, 0] = .ok (i, rest)) :
    decodeTableWord 8 op = some i := decodeTableWord_of_lt (a := 0) (b := 0) hop hop hi

/-- A word of two bytes. -/
theorem decodeTableWord_16 (hop : op < 256) (hi : decode [BitVec.ofNat 8 op, a, 0] = .ok (i, rest)) :
    decodeTableWord 16 (op + 2 ^ 8 * a.toNat) = some i := by
  have ha := a.isLt
  have hlt : op + 2 ^ 8 * a.toNat < 2 ^ 16 := by omega
  exact decodeTableWord_of_lt (b := 0) hop hlt hi

/-- A word of three bytes. -/
theorem decodeTableWord_24 (hop : op < 256) (hi : decode [BitVec.ofNat 8 op, a, b] = .ok (i, rest)) :
    decodeTableWord 24 (op + 2 ^ 8 * a.toNat + 2 ^ 16 * b.toNat) = some i := by
  have ha := a.isLt
  have hb := b.isLt
  exact decodeTableWord_of_lt hop (by omega) hi

end TableWord

/-- Settles O11: a row's word has one byte more than the row has operands. -/
theorem tableWordsDecode : Obligations.TableWordsDecode := fun a b =>
  ⟨decodeTableWord_8 (by decide) (decode_hlt [0, 0]), decodeTableWord_16 (by decide) (decode_prn a [0]),
    decodeTableWord_24 (by decide) (decode_ldi a b []), decodeTableWord_24 (by decide) (decode_add a b []),
    decodeTableWord_24 (by decide) (decode_sub a b [])⟩

/-- The word of an instruction holds its encoding at its start. -/
theorem decode_of_decodeTableWord {nbits w : Nat} {i : Instr} (h : decodeTableWord nbits w = some i) :
    ∃ rest, decode (tableWordBytes nbits w) = .ok (i, rest) := by
  unfold decodeTableWord at h
  split at h
  · rename_i j rest hj
    obtain rfl := Option.some.inj h
    exact ⟨rest, hj⟩
  · cases h

/-! ### The bytes of an encoding by their place -/

theorem encode_getElem?_zero (i : Instr) : (encode i)[0]? = some i.opcode := rfl

theorem encode_getElem?_one (i : Instr) : (encode i)[1]? = i.operandA := by cases i <;> rfl

theorem encode_getElem?_two (i : Instr) : (encode i)[2]? = i.operandB := by cases i <;> rfl

namespace Machine

/-! ### The step of an instruction in memory (O13, O14) -/

/-- Of bytes that stand at pc, the first part stands there too. -/
theorem State.BytesAtPc.of_append {s : State} {bs rest : List Byte} (h : s.BytesAtPc (bs ++ rest)) :
    s.BytesAtPc bs := fun k v hk =>
  h k v (by rw [List.getElem?_append_left (List.getElem?_eq_some_iff.1 hk).1, hk])

/-- An instruction whose bytes stand at pc is the one fetched. -/
theorem fetch_of_bytesAtPc {s : State} {i : Instr} (h : s.BytesAtPc (encode i)) : fetch s = .ok i := by
  have hget : ∀ {k v}, (encode i)[k]? = some v → s.mem.get (s.pc.toNat + k) = v := fun hk =>
    (Memory.read_eq_ok.1 (h _ _ hk)).2
  have hlast : i.operandCount < (encode i).length := by rw [encode_length]; omega
  refine fetch_eq_ok.2 ⟨?_, hget (encode_getElem?_zero i), fun a ha => ?_, fun b hb => ?_⟩
  · exact (Memory.read_eq_ok.1 (h _ _ (List.getElem?_eq_getElem hlast))).1
  · exact hget ((encode_getElem?_one i).trans ha)
  · exact hget ((encode_getElem?_two i).trans hb)

/-- Settles O13: bytes that decode to an instruction begin with its encoding (O10), which the cycle fetches. -/
theorem stepRunsDecodedInstruction : Obligations.StepRunsDecodedInstruction := by
  intro s bs rest i hr hbs hdec
  obtain rfl := (decodeInvertsEncode bs rest i).1 hdec
  exact step_of_fetch_ok hr (fetch_of_bytesAtPc hbs.of_append)

/-- The bytes of a word stand at pc once it is placed there. -/
theorem withFetchWord_bytesAtPc {s : State} (hm : s.mem.wf) (hpc : s.pc.toNat ≤ 253) (nbits w : Nat) :
    (s.withFetchWord nbits w).BytesAtPc (tableWordBytes nbits w) := by
  intro k v hk
  have hlen : k < 3 := (List.getElem?_eq_some_iff.1 hk).1
  exact Memory.read_eq_ok.2 ⟨by simp only [State.withFetchWord, placeFetchWord]; omega,
    Memory.get_writeBytes_at hm hk (by omega)⟩

/-- Settles O14: the placed word's bytes decode to its instruction, which the step then runs (O13). -/
theorem fetchWordRunsNext : Obligations.FetchWordRunsNext := by
  intro s nbits w i hm hpc hw
  obtain ⟨rest, hdec⟩ := decode_of_decodeTableWord hw
  exact stepRunsDecodedInstruction _ _ rest i rfl (withFetchWord_bytesAtPc hm hpc nbits w) hdec

end Machine

/-! ### Facts about the decode table (O8, O9) -/

theorem rowOf_operandCount_eq_shift (m : Mnemonic) :
    (rowOf m).operandCount = ((rowOf m).opcode >>> 6).toNat := by cases m <;> rfl

/-- Settles O8, row by row. -/
theorem opcodeHighBitsEqualOperandCount : Obligations.OpcodeHighBitsEqualOperandCount := by
  intro op row h
  obtain ⟨m, rfl, rfl⟩ := lookupOpcode_eq_some.1 h
  exact rowOf_operandCount_eq_shift m

theorem decode_of_unknown {op : Byte} (h : lookupOpcode op = none) (rest : List Byte) :
    decode (op :: rest) = .error (.unknownOpcode op) := by
  simp only [decode, h]

/-- Settles O9, by the decoding of each form. -/
theorem specWordsDecode : Obligations.SpecWordsDecode :=
  ⟨decode_hlt [], decode_ldi 0 8 [], decode_prn 7 [], decode_add 0 1 [], decode_sub 1 0 [], decode_ldi 8 1 [],
    decode_of_unknown (by decide) [], decode_of_unknown (by decide) [0xFF]⟩

end Sys2Proof

end

/-! ## Memory: the canonical form and the value written -/

section

namespace Sys2Proof.Machine

theorem Memory.get_head (c : Host.Cell) (m : Memory) : Memory.get (c :: m) c.1 = c.2 := if_pos rfl

theorem Memory.get_cons_of_ne {c : Host.Cell} {a : Nat} (h : c.1 ≠ a) (m : Memory) :
    Memory.get (c :: m) a = m.get a := if_neg h

/-- The first listed cell of a canonical memory is the first cell that does not read 0: no other memory that reads the
same can begin above it. -/
theorem Memory.head_le_of_get_eq {c c' : Host.Cell} {m m' : Memory} (h : Memory.wf (c :: m))
    (h' : Memory.wf (c' :: m')) (heq : ∀ a < 256, Memory.get (c :: m) a = Memory.get (c' :: m') a) :
    c'.1 ≤ c.1 := by
  by_contra hlt
  obtain ⟨hc, hne⟩ := Memory.wf_head h
  have habove : Memory.Above (c' :: m') c.1 := List.forall_mem_cons.2
    ⟨Nat.lt_of_not_le hlt, Memory.above_mono (Memory.wf_head_above h') (Nat.lt_of_not_le hlt)⟩
  rw [← Memory.get_head c m, heq _ hc, Memory.get_of_above habove le_rfl] at hne
  exact hne rfl

/-- Canonical memories whose cells read the same are equal, cell by cell from the lowest. -/
theorem Memory.eq_of_get_eq {m m' : Memory} (h : m.wf) (h' : m'.wf) (heq : ∀ a < 256, m.get a = m'.get a) :
    m = m' := by
  induction m generalizing m' with
  | nil =>
    cases m' with
    | nil => rfl
    | cons c' m' =>
      obtain ⟨hc, hne⟩ := Memory.wf_head h'
      exact absurd ((Memory.get_head c' m').symm.trans (heq _ hc).symm) hne
  | cons c m ih =>
    cases m' with
    | nil =>
      obtain ⟨hc, hne⟩ := Memory.wf_head h
      exact absurd ((Memory.get_head c m).symm.trans (heq _ hc)) hne
    | cons c' m' =>
      have haddr : c'.1 = c.1 := le_antisymm (Memory.head_le_of_get_eq h h' heq)
        (Memory.head_le_of_get_eq h' h fun a ha => (heq a ha).symm)
      have hval : c'.2 = c.2 := by
        rw [← Memory.get_head c m, heq _ (Memory.wf_head h).1, ← haddr, Memory.get_head]
      obtain rfl : c' = c := Prod.ext haddr hval
      rw [ih (Memory.wf_tail h) (Memory.wf_tail h') fun a ha => ?_]
      by_cases hca : c'.1 = a
      · rw [Memory.get_of_above (Memory.wf_head_above h) hca.ge,
          Memory.get_of_above (Memory.wf_head_above h') hca.ge]
      · rw [← Memory.get_cons_of_ne hca m, ← Memory.get_cons_of_ne hca m', heq a ha]

/-- A write that succeeds set one cell of memory. -/
theorem Memory.write_eq_ok {m m' : Memory} {a v : Nat} (h : m.write a v = .ok m') :
    a < 256 ∧ m' = m.set a (BitVec.ofNat 8 v) := by
  by_cases ha : a < 256
  · rw [Memory.write_of_lt ha] at h
    exact ⟨ha, (Except.ok.inj h).symm⟩
  · rw [Memory.write_of_ge (Nat.not_lt.1 ha)] at h
    cases h

/-- Settles O5: writes insert, replace or delete one listed cell in order, and the listed cells are those that do not
read 0. -/
theorem memoryOperationsKeepCanonicalForm : Obligations.MemoryOperationsKeepCanonicalForm := by
  refine ⟨fun m m' a v hm hw => ?_, fun m a vs hm => Memory.writeBytes_wf hm a vs, fun m m' hm hm' heq => ?_⟩
  · obtain ⟨ha, rfl⟩ := Memory.write_eq_ok hw
    exact Memory.set_wf hm ha _
  · refine Memory.eq_of_get_eq hm hm' fun a ha => ?_
    have hread := heq a
    rw [Memory.read_of_lt ha, Memory.read_of_lt ha] at hread
    exact Except.ok.inj hread

/-- Settles O4: the byte stored is the value's remainder. -/
theorem memoryWriteMasksValue : Obligations.MemoryWriteMasksValue := by
  intro m a v hm ha
  have ha' : a < 256 := Nat.lt_succ_of_le ha
  refine ⟨_, BitVec.ofNat 8 v, Memory.write_of_lt ha' v, ?_, BitVec.toNat_ofNat v 8⟩
  rw [Memory.read_set hm ha', if_pos rfl]

end Sys2Proof.Machine

end

/-! ## The cycle: what it counts, traces, emits and raises -/

section

namespace Sys2Proof.Machine

/-! ### The count and the trace (O18) -/

/-- The record of a cycle shows the cycle's pc, the bytes of the encoding, and the registers after the execute step
(60_exceptions.md R136). -/
theorem Executed.traceRecord_eq {s s' : State} {i : Instr} (h : Executed s s' i) :
    s'.traceRecord i = { programCounter := s.pc, rawOpcode := i.opcode, operandA := (encode i)[1]?,
                         operandB := (encode i)[2]?, registers := s'.regs } := by
  rw [encode_getElem?_one, encode_getElem?_two, ← h.pc_eq, State.traceRecord]

/-- Settles O18: a well-formed instruction completes its cycle. -/
theorem completedCycleCountsAndTraces : Obligations.CompletedCycleCountsAndTraces := by
  intro i s hw
  obtain ⟨s', he, hx⟩ := exec_of_wellFormed hw s
  refine ⟨_, i.opcode, hx, encode_getElem?_zero i, ?_, ?_⟩
  · rw [State.completeCycle_cycles, he.cycles_eq]
  · rw [State.completeCycle_trace, he.traceEnabled_eq, he.trace_eq, he.traceRecord_eq, State.completeCycle_regs]

/-! ### Faults (O30, O31) and terminal states (O15) -/

/-- Settles O15: each of the two terminal states is not Running. -/
theorem terminalStepChangesNothing : Obligations.TerminalStepChangesNothing := by
  rintro s (hh | ⟨k, p, hf⟩)
  · exact step_of_terminal (by simp [hh])
  · exact step_of_terminal (by simp [hf])

/-- Settles O31: of what a step of a Running core can do, only entering a fault ends in Faulted. -/
theorem faultsArePrecise : Obligations.FaultsArePrecise := by
  intro s t k p hr h ht
  obtain ⟨hn, -⟩ | ⟨-, k', -, rfl⟩ | ⟨-, i, s', -, he, rfl⟩ := step_next_cases h
  · exact absurd hr hn
  · obtain ⟨rfl, rfl⟩ := RunState.faulted.inj ht
    exact ⟨rfl, rfl⟩
  · exact absurd ht (he.not_faulted hr k p)

/-- A cycle raises AddressOutOfRange only by its fetch: no instruction accesses memory when it executes. -/
theorem step_addressOutOfRange_iff {s t : State} (hr : s.runState = .running) (h : step s = .next t) :
    (∃ p, t.runState = .faulted .addressOutOfRange p) ↔ fetch s = .error .addressOutOfRange := by
  cases hf : fetch s with
  | error k =>
    obtain rfl := Host.Outcome.next.inj ((step_of_fetch_error hr hf).symm.trans h)
    simp
  | ok i =>
    rw [step_of_fetch_ok hr hf] at h
    obtain ⟨-, s', he, rfl⟩ | ⟨-, rfl⟩ := exec_cases h
    · simp [he.not_faulted hr]
    · simp

/-- A fetch leaves memory at the opcode byte, or at an operand byte of an opcode that has a row. -/
theorem fetch_addressOutOfRange_iff {s : State} :
    fetch s = .error .addressOutOfRange ↔
      255 < s.pc.toNat ∨
        ∃ m, s.mem.read s.pc.toNat = .ok (rowOf m).opcode ∧ 256 ≤ s.pc.toNat + (rowOf m).operandCount := by
  constructor
  · intro h
    by_cases hp : 255 < s.pc.toNat
    · exact .inl hp
    have hread : s.mem.read s.pc.toNat = .ok (s.mem.get s.pc.toNat) := Memory.read_of_lt (by omega)
    cases hrow : lookupOpcode (s.mem.get s.pc.toNat) with
    | none =>
      rw [fetch_of_unknown hread hrow] at h
      cases h
    | some row =>
      obtain ⟨m, -, hop⟩ := lookupOpcode_eq_some.1 hrow
      refine .inr ⟨m, hop ▸ hread, ?_⟩
      by_contra hin
      rw [fetch_of_opcode hop (Nat.lt_of_not_le hin)] at h
      cases h
  · rintro (hp | ⟨m, hop, hcut⟩)
    · exact fetch_of_pc_ge hp
    · exact fetch_of_operands_cut_off m hop hcut

/-- The opcodes of listed mnemonics, where the list holds those with at least n operands. -/
theorem mem_map_opcode_iff {ms : List Mnemonic} {n : Nat} (hms : ∀ m, m ∈ ms ↔ n ≤ (rowOf m).operandCount)
    {op : Byte} : op ∈ ms.map (fun m => (rowOf m).opcode) ↔
      ∃ m, op = (rowOf m).opcode ∧ n ≤ (rowOf m).operandCount := by
  simp only [List.mem_map, hms, eq_comm (b := op), and_comm]

/-- The opcodes with operands (30_encoding.md R53). -/
theorem mem_opcodes_with_operand {op : Byte} :
    op ∈ [(0x47 : Byte), 0x82, 0xA0, 0xA1] ↔ ∃ m, op = (rowOf m).opcode ∧ 1 ≤ (rowOf m).operandCount :=
  mem_map_opcode_iff (ms := [.prn, .ldi, .add, .sub]) fun m => by cases m <;> decide

/-- The opcodes with two operands (30_encoding.md R53). -/
theorem mem_opcodes_with_two_operands {op : Byte} :
    op ∈ [(0x82 : Byte), 0xA0, 0xA1] ↔ ∃ m, op = (rowOf m).opcode ∧ 2 ≤ (rowOf m).operandCount :=
  mem_map_opcode_iff (ms := [.ldi, .add, .sub]) fun m => by cases m <;> decide

theorem rowOf_operandCount_le_two (m : Mnemonic) : (rowOf m).operandCount ≤ 2 := by
  cases m <;> decide

/-- Settles O30: with at most two operands, one can lie past address 255 only from 255 or 254 on. -/
theorem addressOutOfRangeExactCases : Obligations.AddressOutOfRangeExactCases := by
  intro s t hr h
  rw [step_addressOutOfRange_iff hr h, fetch_addressOutOfRange_iff]
  refine or_congr_right ?_
  simp only [mem_opcodes_with_operand, mem_opcodes_with_two_operands]
  constructor
  · rintro ⟨m, hop, hcut⟩
    have hp := (Memory.read_eq_ok.1 hop).1
    have hm := rowOf_operandCount_le_two m
    obtain hpc | hpc : s.pc.toNat = 255 ∨ s.pc.toNat = 254 := by omega
    · exact .inl ⟨hpc, _, ⟨m, rfl, by omega⟩, hpc ▸ hop⟩
    · exact .inr ⟨hpc, _, ⟨m, rfl, by omega⟩, hpc ▸ hop⟩
  · rintro (⟨hpc, _, ⟨m, rfl, hm⟩, hop⟩ | ⟨hpc, _, ⟨m, rfl, hm⟩, hop⟩)
    · exact ⟨m, hpc ▸ hop, by omega⟩
    · exact ⟨m, hpc ▸ hop, by omega⟩

/-- Settles O35: the codes are the model's table. -/
theorem errorCodes : Obligations.ErrorCodes := ⟨rfl, rfl, rfl, rfl, rfl⟩

/-! ### The output (O34) -/

/-- The execute step emits nothing unless it is PRN's, which emits its register's value (41_datamove.md R91). -/
theorem Executed.out_cases {s s' : State} {i : Instr} (h : Executed s s' i) :
    s'.out = s.out ∨ ∃ a v, i = .prn a ∧ readReg s a = .ok v ∧ s'.out = s.out ++ [v] := by
  cases i with
  | hlt => cases h; exact .inl rfl
  | ldi a imm => obtain ⟨_, rfl⟩ := h; exact .inl rfl
  | prn a => obtain ⟨ha, rfl⟩ := h; exact .inr ⟨a, _, rfl, readReg_of_lt ha, rfl⟩
  | add a b => obtain ⟨_, _, rfl⟩ := h; exact .inl rfl
  | sub a b => obtain ⟨_, _, rfl⟩ := h; exact .inl rfl

/-- The byte after the opcode of a fetched PRN is its operand. -/
theorem read_operand_of_fetch_prn {s : State} {a : Byte} (h : fetch s = .ok (.prn a)) :
    s.mem.read (s.pc.toNat + 1) = .ok a := by
  obtain ⟨hp, -, ha, -⟩ := fetch_eq_ok.1 h
  exact Memory.read_eq_ok.2 ⟨hp, ha a rfl⟩

/-- Settles O34: of what a step can do, only the completed cycle of a PRN adds to the output. -/
theorem onlyPrnEmits : Obligations.OnlyPrnEmits := by
  intro s t h
  obtain ⟨-, rfl⟩ | ⟨-, k, -, rfl⟩ | ⟨hr, i, s', hf, he, rfl⟩ := step_next_cases h
  · exact .inl rfl
  · exact .inl rfl
  · obtain hout | ⟨a, v, rfl, hv, hout⟩ := he.out_cases
    · exact .inl hout
    · exact .inr ⟨hr, read_pc_of_fetch hf, a, v, read_operand_of_fetch_prn hf, hv, hout⟩

end Sys2Proof.Machine

end

/-! ## Renaming the registers by a permutation -/

section

namespace Sys2Proof.Machine

section Rename

variable (f : Equiv.Perm (Fin 8))

/-- An operand byte with the register it names renamed; a byte that names none stays. -/
def renameByte (a : Byte) : Byte := if h : a.toNat < 8 then BitVec.ofNat 8 (f ⟨a.toNat, h⟩).val else a

/-- The register file in which each register's value stands at its new name. -/
def renameRegs (r : RegFile) : RegFile := Vector.ofFn fun j => r[f.symm j]

/-- An instruction with its register operands renamed; an immediate is none. -/
def renameInstr : Instr → Instr
  | .hlt => .hlt
  | .ldi a imm => .ldi (renameByte f a) imm
  | .prn a => .prn (renameByte f a)
  | .add a b => .add (renameByte f a) (renameByte f b)
  | .sub a b => .sub (renameByte f a) (renameByte f b)

/-- The state with its registers renamed. -/
def State.rename (s : State) : State := { s with regs := renameRegs f s.regs }

theorem renameByte_toNat {a : Byte} (h : a.toNat < 8) : (renameByte f a).toNat = (f ⟨a.toNat, h⟩).val := by
  have hf := (f ⟨a.toNat, h⟩).isLt
  rw [renameByte, dif_pos h, BitVec.toNat_ofNat]
  omega

theorem renameByte_lt_iff {a : Byte} : (renameByte f a).toNat < 8 ↔ a.toNat < 8 := by
  by_cases h : a.toNat < 8
  · simp only [renameByte_toNat f h, h, Fin.is_lt]
  · rw [renameByte, dif_neg h]

/-- The value of a register stands at its new name. -/
theorem renameRegs_getElem (r : RegFile) {a : Byte} (h : a.toNat < 8) (h' : (renameByte f a).toNat < 8) :
    (renameRegs f r)[(renameByte f a).toNat] = r[a.toNat] := by
  simp only [renameByte_toNat f h, renameRegs, Vector.getElem_ofFn, Fin.eta, Equiv.symm_apply_apply]
  rfl

/-- Setting a register by its new name is renaming the file in which it is set by its old one, since no other register
gets that name. -/
theorem renameRegs_set (r : RegFile) {a : Byte} (h : a.toNat < 8) (h' : (renameByte f a).toNat < 8) (v : Byte) :
    (renameRegs f r).set (renameByte f a).toNat v = renameRegs f (r.set a.toNat v) := by
  ext j hj
  have hname : (renameByte f a).toNat = j ↔ a.toNat = (f.symm ⟨j, hj⟩).val := by
    rw [renameByte_toNat f h, ← Fin.ext_iff (a := f _) (b := ⟨j, hj⟩), ← Equiv.eq_symm_apply, Fin.ext_iff]
  simp only [renameRegs, Vector.getElem_set, Vector.getElem_ofFn, hname, Fin.getElem_fin]

theorem wellFormed_renameInstr (i : Instr) : (renameInstr f i).wellFormed = i.wellFormed := by
  rw [Bool.eq_iff_iff]
  cases i with
  | hlt => rfl
  | ldi a imm => simp only [renameInstr, wellFormed_ldi, renameByte_lt_iff]
  | prn a => simp only [renameInstr, wellFormed_prn, renameByte_lt_iff]
  | add a b => simp only [renameInstr, wellFormed_add, renameByte_lt_iff]
  | sub a b => simp only [renameInstr, wellFormed_sub, renameByte_lt_iff]

theorem operandCount_renameInstr (i : Instr) : (renameInstr f i).operandCount = i.operandCount := by
  cases i <;> rfl

variable {f}

theorem State.rename_setReg (s : State) {a : Byte} (h : a.toNat < 8) (h' : (renameByte f a).toNat < 8) (v : Byte) :
    (s.setReg ⟨a.toNat, h⟩ v).rename f = (s.rename f).setReg ⟨(renameByte f a).toNat, h'⟩ v := by
  simp only [State.rename, State.setReg, renameRegs_set f s.regs h h' v]

/-- Setting a register to a value computed from two registers commutes with renaming. -/
theorem State.rename_setReg_binary (s : State) (g : Byte → Byte → Byte) {a b : Byte} (ha : a.toNat < 8)
    (hb : b.toNat < 8) (ha' : (renameByte f a).toNat < 8) (hb' : (renameByte f b).toNat < 8) :
    (s.setReg ⟨a.toNat, ha⟩ (g s.regs[a.toNat] s.regs[b.toNat])).rename f =
      (s.rename f).setReg ⟨(renameByte f a).toNat, ha'⟩
        (g (s.rename f).regs[(renameByte f a).toNat] (s.rename f).regs[(renameByte f b).toNat]) := by
  rw [s.rename_setReg ha ha', ← renameRegs_getElem f s.regs ha ha', ← renameRegs_getElem f s.regs hb hb']
  rfl

/-- The execute step commutes with renaming. -/
theorem Executed.rename {s s' : State} {i : Instr} (h : Executed s s' i) :
    Executed (s.rename f) (s'.rename f) (renameInstr f i) := by
  cases i with
  | hlt => cases h; rfl
  | ldi a imm =>
    obtain ⟨ha, rfl⟩ := h
    have ha' := (renameByte_lt_iff f).2 ha
    exact ⟨ha', s.rename_setReg ha ha' imm⟩
  | prn a =>
    obtain ⟨ha, rfl⟩ := h
    have ha' := (renameByte_lt_iff f).2 ha
    exact ⟨ha', congrArg (s.rename f).emitOut (renameRegs_getElem f s.regs ha ha').symm⟩
  | add a b =>
    obtain ⟨ha, hb, rfl⟩ := h
    have ha' := (renameByte_lt_iff f).2 ha
    have hb' := (renameByte_lt_iff f).2 hb
    exact ⟨ha', hb', s.rename_setReg_binary (· + ·) ha hb ha' hb'⟩
  | sub a b =>
    obtain ⟨ha, hb, rfl⟩ := h
    have ha' := (renameByte_lt_iff f).2 ha
    have hb' := (renameByte_lt_iff f).2 hb
    exact ⟨ha', hb', s.rename_setReg_binary (· - ·) ha hb ha' hb'⟩

end Rename

/-- An instruction's execute step determines its meaning. -/
theorem Executed.exec_eq {s s' : State} {i : Instr} (h : Executed s s' i) :
    exec i s = .next (s'.completeCycle i) := by
  cases i with
  | hlt => cases h; exact exec_hlt s
  | ldi a imm => obtain ⟨ha, rfl⟩ := h; exact exec_ldi_of_lt ha imm s
  | prn a => obtain ⟨ha, rfl⟩ := h; exact exec_prn_of_lt ha s
  | add a b => obtain ⟨ha, hb, rfl⟩ := h; exact exec_add_of_lt ha hb s
  | sub a b => obtain ⟨ha, hb, rfl⟩ := h; exact exec_sub_of_lt ha hb s

/-- Settles O26: the renamed instruction completes with the renamed execute step, or raises the same fault. -/
theorem registersAreInterchangeable : Obligations.RegistersAreInterchangeable := by
  intro f i s t byte file instr h
  have hinstr : instr i = renameInstr f i := by cases i <;> rfl
  rw [hinstr]
  obtain ⟨-, s', he, rfl⟩ | ⟨hw, rfl⟩ := exec_cases h
  · refine ⟨_, he.rename.exec_eq, rfl, ?_, rfl, rfl, rfl, rfl, rfl⟩
    rw [State.completeCycle_pc, State.completeCycle_pc, operandCount_renameInstr]
    rfl
  · have hw' : (renameInstr f i).wellFormed = false := (wellFormed_renameInstr f i).trans hw
    exact ⟨_, exec_of_not_wellFormed hw' _, rfl, rfl, rfl, rfl, rfl, rfl, rfl⟩

end Sys2Proof.Machine

end

/-! ## The loader port, reset and whole runs -/

section

namespace Sys2Proof.Machine

/-! ### The loader port (O37, O38) -/

/-- Settles O37: an accepted load is one store of a sequence from address 0 upward. -/
theorem loaderWritesWholeProgramOrNothing : Obligations.LoaderWritesWholeProgramOrNothing := by
  intro s program hs hm
  exact ⟨fun hlen => ⟨_, load_of_length_le hs hlen, fun _ _ hk => Memory.read_writeBytes_zero hm hlen hk,
    fun _ hk => Memory.read_writeBytes_zero_above hm hk, rfl⟩, load_of_length_gt hs⟩

theorem launchPending_iff {s : State} :
    s.launchPending = true ↔ s.runState = .running ∧ s.cycles = 0 ∧ s.programLoaded = false := by
  simp [State.launchPending, and_assoc]

theorem load_of_not_launchPending {s : State} (h : ¬s.launchPending = true) (program : List Byte) :
    load program s = .refused .loadOutsideLaunch := if_neg h

/-- Everything a load that answers a next state does. -/
theorem load_eq_next {s t : State} {program : List Byte} (h : load program s = .next t) :
    s.launchPending = true ∧ t = { s with mem := s.mem.writeBytes 0 program, programLoaded := true } := by
  by_cases hs : s.launchPending = true
  · by_cases hlen : program.length ≤ 256
    · exact ⟨hs, Host.Outcome.next.inj (h.symm.trans (load_of_length_le hs hlen))⟩
    · rw [load_of_length_gt hs (Nat.lt_of_not_le hlen)] at h
      cases h
  · rw [load_of_not_launchPending hs] at h
    cases h

theorem not_launchPending_of_load {s t : State} {program : List Byte} (h : load program s = .next t) :
    ¬t.launchPending = true := by
  obtain ⟨-, rfl⟩ := load_eq_next h
  simp [launchPending_iff]

/-- After a cycle the core has faulted or counted it. -/
theorem not_launchPending_of_step {s t : State} (hr : s.runState = .running) (h : step s = .next t) :
    ¬t.launchPending = true := by
  rw [launchPending_iff]
  rintro ⟨hrt, hc, -⟩
  obtain ⟨hn, -⟩ | ⟨-, k, -, rfl⟩ | ⟨-, i, s', -, -, rfl⟩ := step_next_cases h
  · exact hn hr
  · cases hrt
  · cases hc

/-- Settles O38: the loader mark closes the window after a load, and a fault or a counted cycle after a step. -/
theorem loaderRefusesOutsideLaunch : Obligations.LoaderRefusesOutsideLaunch :=
  ⟨fun b _ hlen => ⟨_, load_of_length_le (resetWith_launchPending b) hlen⟩,
    fun _ _ _ second h => load_of_not_launchPending (not_launchPending_of_load h) second,
    fun _ _ program hr h => load_of_not_launchPending (not_launchPending_of_step hr h) program⟩

/-! ### Reset (O2, O39) and the invariant (O40) -/

theorem resetWith_read (b : Bool) {a : Nat} (h : a ≤ 255) : (State.resetWith b).mem.read a = .ok 0 :=
  Memory.read_of_lt (Nat.lt_succ_of_le h)

/-- Settles O2: `State.reset` is `State.resetWith` of the open parameter. -/
theorem resetRestOfState : Obligations.ResetRestOfState := by
  rintro s (rfl | ⟨b, rfl⟩)
  · exact ⟨fun _ h => resetWith_read _ h, rfl, rfl, rfl, rfl, rfl, rfl, rfl⟩
  · exact ⟨fun _ h => resetWith_read b h, rfl, rfl, rfl, rfl, rfl, rfl, rfl⟩

/-- The state after reset is Running at pc 0, with nothing counted and nothing observed. -/
theorem resetWith_inv (b : Bool) : (State.resetWith b).Inv where
  memCanonical := Memory.wf_nil
  pcInRange := Nat.zero_le _
  flagsZero := rfl
  intMaskZero := rfl
  intStatusZero := rfl
  faultRecord := nofun
  haltedAfterHlt := nofun
  cyclesBound := Nat.zero_le _
  outBound := Nat.zero_le _
  traceLength := (ite_self _).symm

/-- Settles O39: `State.reset` is `State.resetWith` of the open parameter. -/
theorem resetMeetsInv : Obligations.ResetMeetsInv := ⟨resetWith_inv _, resetWith_inv⟩

/-- Settles O40: a load touches memory and the loader mark, and only of a Running core. -/
theorem loadKeepsInv : Obligations.LoadKeepsInv := by
  intro s t program hs h
  obtain ⟨hpending, rfl⟩ := load_eq_next h
  obtain ⟨hr, -, -⟩ := launchPending_iff.1 hpending
  exact { hs with
    memCanonical := Memory.writeBytes_wf hs.memCanonical 0 program
    haltedAfterHlt := fun hh => absurd (hr.symm.trans hh) nofun }

/-! ### What no run changes (O42) -/

theorem Executed.programLoaded_eq {s s' : State} {i : Instr} (h : Executed s s' i) :
    s'.programLoaded = s.programLoaded := by rw [h.frame]

/-- From s to t memory, the reserved registers, TRACE_ENABLED and the loader mark stayed as they were. -/
structure State.KeepsReserved (s t : State) : Prop where
  mem : t.mem = s.mem
  flags : t.flags = s.flags
  intMask : t.intMask = s.intMask
  intStatus : t.intStatus = s.intStatus
  traceEnabled : t.traceEnabled = s.traceEnabled
  programLoaded : t.programLoaded = s.programLoaded

theorem State.KeepsReserved.refl (s : State) : s.KeepsReserved s := ⟨rfl, rfl, rfl, rfl, rfl, rfl⟩

theorem State.KeepsReserved.trans {s t u : State} (h : s.KeepsReserved t) (h' : t.KeepsReserved u) :
    s.KeepsReserved u where
  mem := h'.mem.trans h.mem
  flags := h'.flags.trans h.flags
  intMask := h'.intMask.trans h.intMask
  intStatus := h'.intStatus.trans h.intStatus
  traceEnabled := h'.traceEnabled.trans h.traceEnabled
  programLoaded := h'.programLoaded.trans h.programLoaded

theorem step_keepsReserved {s t : State} (h : step s = .next t) : s.KeepsReserved t := by
  obtain ⟨-, rfl⟩ | ⟨-, k, -, rfl⟩ | ⟨-, i, s', -, he, rfl⟩ := step_next_cases h
  · exact .refl t
  · exact ⟨rfl, rfl, rfl, rfl, rfl, rfl⟩
  · exact ⟨he.mem_eq, he.flags_eq, he.intMask_eq, he.intStatus_eq, he.traceEnabled_eq, he.programLoaded_eq⟩

/-- Settles O42: every step keeps them, so every run does. -/
theorem runLeavesMemoryAndReservedRegisters : Obligations.RunLeavesMemoryAndReservedRegisters := by
  intro k s t h
  have hkeeps : s.KeepsReserved t :=
    core_run_keeps (fun _ _ hu hstep => hu.trans (step_keepsReserved hstep)) (.refl s) h
  exact ⟨fun adr => congrArg (·.read adr) hkeeps.mem, hkeeps.flags, hkeeps.intMask, hkeeps.intStatus,
    hkeeps.traceEnabled, hkeeps.programLoaded⟩

/-! ### The end of run() (O45) and the bound on a launched program (O46) -/

theorem run_ends {s t : State} (h : run s = .next t) : t.runState ≠ .running := by
  rw [run, runLoop_eq_core_run] at h
  exact core_run_ends (by decide) (Nat.le_add_right 257 _) h

/-- Settles O45: a run ends in a terminal state, from which the loop of run() takes no step. -/
theorem runAgainReturnsSameOutcome : Obligations.RunAgainReturnsSameOutcome := by
  intro s t h
  have hagain : run t = .next t := runLoop_of_terminal (run_ends h) _
  exact ⟨hagain, (runOutcome_of_run hagain).trans (runOutcome_of_run h).symm⟩

/-- Of the 256 addresses pc can leave, every completed cycle but a last HLT takes two. -/
theorem State.Inv.cycles_le {s : State} (h : s.Inv) : s.cycles ≤ 128 := by
  have hpc := h.pcInRange
  have hc := h.cyclesBound
  split at hc <;> omega

/-- Settles O46: reset meets the invariant, and the load and every step keep it. -/
theorem launchedRunCompletesAtMost128Cycles : Obligations.LaunchedRunCompletesAtMost128Cycles := by
  intro b program k s t hload hrun
  have hs : s.Inv := loadKeepsInv _ s program (resetWith_inv b) hload
  have ht : t.Inv := core_run_keeps stepKeepsInv hs hrun
  exact ⟨ht.cycles_le, ht.outBound.trans ht.cycles_le⟩

end Sys2Proof.Machine

end
